-- ==== Sys2Proof/Word.lean ====
section
/-! DEFINITION. The word types of SHA256-CORE. Every value is unsigned (00_scope.md R6, R8, R9). -/

namespace Sys2Proof

/-- A 32-bit word; `+` on it is addition modulo 2^32 (R6, R9). -/
abbrev Word := BitVec 32

/-- A message, buffer or digest byte (R6). -/
abbrev Byte := BitVec 8

/-- The 64-bit message length in bits (R6, R21). -/
abbrev BitLen := BitVec 64

end Sys2Proof
end

