-- ==== Sys2Proof/Syntax.lean ====
section
/-! DEFINITION. The commands: one constructor for each row of spec/opcode_table.json (30_encoding.md R54 to R56). -/

namespace Sys2Proof

/-- A command, the decoded content of one CTRL write. The micro-steps have no encoding and are no commands (R60). -/
inductive Instr where
  /-- OP = 0x0 (R103). -/
  | nop
  /-- OP = 0x1 (R104). -/
  | init
  /-- OP = 0x2; `nb` is the field NB, the byte count minus 1 (R55, R66). -/
  | absorb (nb : BitVec 2)
  /-- OP = 0x3 (R69). -/
  | finish
  /-- OP in 0x4..0x7, reserved; `op` is the whole OP field (R56, R105). -/
  | reserved4to7 (op : BitVec 4)
  /-- OP in 0x8..0xF, reserved; `op` is the whole OP field (R56, R105). -/
  | reserved8toF (op : BitVec 4)
deriving DecidableEq, Repr

end Sys2Proof
end

