-- ==== Sys2Proof/WellFormed.lean ====
section
/-! DEFINITION. Which command terms stand for an encoding: a reserved row's OP lies in the row's range (R56,
spec/opcode_table.json). Every other field is exactly as wide as its encoding. -/

namespace Sys2Proof

/-- A command term has an encoding: the OP field of a reserved row is one of the row's values. -/
def WellFormed : Instr → Bool
  | .nop => true
  | .init => true
  | .absorb _ => true
  | .finish => true
  | .reserved4to7 op => decide (4 ≤ op.toNat ∧ op.toNat ≤ 7)
  | .reserved8toF op => decide (8 ≤ op.toNat)

end Sys2Proof
end

