-- ==== Sys2Proof/Decode.lean ====
section
/-! DEFINITION. The command decoder, total on 32-bit words (30_encoding.md R54 to R58), the encoder written from the
same table, and the opcode table as rows of mask and pattern (spec/opcode_table.json). -/

namespace Sys2Proof

/-- The field OP, bits 3:0 of a command word (R54). -/
def opField (word : Word) : BitVec 4 := word.extractLsb' 0 4

/-- The field NB, bits 5:4 of a command word (R54). -/
def nbField (word : Word) : BitVec 2 := word.extractLsb' 4 2

/-- `decode` of R56: OP alone chooses the command; bits 31:6, and bits 5:4 but for ABSORB, are ignored (R58). -/
def decode (word : Word) : Instr :=
  if opField word = 0x0#4 then .nop
  else if opField word = 0x1#4 then .init
  else if opField word = 0x2#4 then .absorb (nbField word)
  else if opField word = 0x3#4 then .finish
  else if (opField word).toNat ≤ 7 then .reserved4to7 (opField word)
  else .reserved8toF (opField word)

/-- A command word with the ignored bits 31:6 zero (R54, R58). -/
def commandWord (nb : BitVec 2) (op : BitVec 4) : Word := 0#26 ++ nb ++ op

/-- The canonical word of a command (R56, R62); a reserved OP, which has none, is placed in bits 3:0 alone. -/
def encode : Instr → Word
  | .nop => commandWord 0 0x0#4
  | .init => commandWord 0 0x1#4
  | .absorb nb => commandWord nb 0x2#4
  | .finish => commandWord 0 0x3#4
  | .reserved4to7 op => commandWord 0 op
  | .reserved8toF op => commandWord 0 op

/-- The bits of a command word the hardware looks at: OP, and NB for ABSORB (R58). -/
def usedBits : Instr → Word
  | .nop => 0x0000000F#32
  | .init => 0x0000000F#32
  | .absorb _ => 0x0000003F#32
  | .finish => 0x0000000F#32
  | .reserved4to7 _ => 0x0000000F#32
  | .reserved8toF _ => 0x0000000F#32

/-- Why a bit string is no command. -/
inductive DecodeError where
  /-- CMD32 is the only format and is 32 bits long (R54): these many bits are not one word. -/
  | notOneWord (nbits : Nat)
deriving DecidableEq, Repr

/-- Decode `nbits` bits of value `w`, whose bits from `nbits` up to 31 are 0; rejects by name what is not one word (R54). -/
def decodeBits (nbits w : Nat) : Except DecodeError Instr :=
  if nbits = 0 ∨ 32 < nbits then .error (.notOneWord nbits)
  else .ok (decode (BitVec.ofNat 32 (w % 2 ^ nbits)))

/-- The host's view of the decoder, numbered as the opcode table numbers bits (log 11). -/
def decodeTableWord (nbits w : Nat) : Option Instr :=
  match decodeBits nbits w with
  | .ok i => some i
  | .error _ => none

/-- One row of the opcode table: a word is of the row when its masked bits are the pattern. -/
structure OpcodeRow where
  mnemonic : String
  mask : Word
  pattern : Word
deriving DecidableEq, Repr

/-- A word is of the row. -/
def OpcodeRow.fits (row : OpcodeRow) (word : Word) : Bool := word &&& row.mask == row.pattern

/-- spec/opcode_table.json. -/
def opcodeTable : List OpcodeRow :=
  [ ⟨"NOP", 0x0000000F#32, 0x00000000#32⟩,
    ⟨"INIT", 0x0000000F#32, 0x00000001#32⟩,
    ⟨"ABSORB", 0x0000000F#32, 0x00000002#32⟩,
    ⟨"FINISH", 0x0000000F#32, 0x00000003#32⟩,
    ⟨"RESERVED_4_7", 0x0000000C#32, 0x00000004#32⟩,
    ⟨"RESERVED_8_F", 0x00000008#32, 0x00000008#32⟩ ]

/-- The table's name for a command. -/
def Instr.mnemonic : Instr → String
  | .nop => "NOP"
  | .init => "INIT"
  | .absorb _ => "ABSORB"
  | .finish => "FINISH"
  | .reserved4to7 _ => "RESERVED_4_7"
  | .reserved8toF _ => "RESERVED_8_F"

end Sys2Proof
end

