-- ==== Sys2Proof/Machine/Operands.lean ====
section
/-! DEFINITION. The primitives every rule is written with (00_scope.md R9, R10; 41_scheduler.md R73, R74) and the two
operand forms a command has (30_encoding.md R55): the NB field and the lanes of DATA_IN (20_memory.md R42). -/

namespace Sys2Proof.Machine

/-- `BE32(b0, b1, b2, b3)`: the first byte is the most significant (R10, R41). -/
def be32 (b0 b1 b2 b3 : Byte) : Word := b0 ++ b1 ++ b2 ++ b3

/-- `BYTE(w, j) = w[31−8j : 24−8j]` (R10). -/
def byteOf (w : Word) (j : Fin 4) : Byte := w.extractLsb' (24 - 8 * j.val) 8

/-- `BE64(v)[j] = v[63−8j : 56−8j]` (R10). -/
def be64 (v : BitLen) (j : Fin 8) : Byte := v.extractLsb' (56 - 8 * j.val) 8

/-- `rotr(x, n) = (x >> n) OR (x << (32 − n))`, for n in [1, 31] and for no other n (R73, I3, log 12). -/
def rotr (x : Word) (n : Nat) (_inRange : 1 ≤ n ∧ n ≤ 31 := by decide) : Word :=
  (x >>> n) ||| (x <<< (32 - n))

/-- `shr(x, n) = x >> n`, zero fill (R74), for n in [1, 31] and for no other n, as I3 leaves other amounts undefined; the
rules use 3 and 10 (log 12). -/
def shr (x : Word) (n : Nat) (_inRange : 1 ≤ n ∧ n ≤ 31 := by decide) : Word := x >>> n

/-- The byte count of an ABSORB, n = NB + 1, 1 to 4 (R55). -/
def absorbCount (nb : BitVec 2) : Nat := nb.toNat + 1

/-- The first n lanes of DATA_IN, first byte in bits 31:24; the other lanes are ignored (R42). -/
def lanes (dataIn : Word) (n : Nat) : List Byte := ((List.finRange 4).map (byteOf dataIn)).take n

end Sys2Proof.Machine
end

