-- ==== Sys2Proof/Machine/State.lean ====
section
/-! DEFINITION. The state of SHA256-CORE (10_state.md R14 to R28) and the model's fields for what is outside the block:
the host's transactions, the choice of who moves, and the last bus response. -/

namespace Sys2Proof.Machine

/-- PHASE, the transaction phase (R23). The codes 5 to 7 are never held, so they have no constructor (I7). -/
inductive Phase where
  /-- P_IDLE: no transaction since reset. -/
  | idle
  /-- P_ABSORB: transaction open. -/
  | absorb
  /-- P_FINAL: FINISH accepted, final block or blocks in flight. -/
  | final
  /-- P_DONE: digest complete in D. -/
  | done
  /-- P_ERROR: transaction ended by a length overflow. -/
  | error
deriving DecidableEq, Repr

/-- SEQ, the sequencer's position: exactly the 116 values of R24. -/
inductive Seq where
  /-- S_IDLE. -/
  | idle
  /-- S_SCHED(t) with t = `k` + 16, so t = 16..63. -/
  | sched (k : Fin 48)
  /-- S_ROUND(i), i = 0..63. -/
  | round (i : Fin 64)
  /-- S_FF. -/
  | ff
  /-- S_PAD2. -/
  | pad2
  /-- S_SER. -/
  | ser
deriving DecidableEq, Repr

/-- The error causes ECAUSE can hold (60_exceptions.md R111). The codes 5 to 15 are never recorded (I7). -/
inductive Cause where
  /-- Code 0: no error since INIT or reset. -/
  | none
  /-- Code 1, RESERVED_OP. -/
  | reservedOp
  /-- Code 2, ABSORB_NOT_OPEN. -/
  | absorbNotOpen
  /-- Code 3, FINISH_NOT_OPEN. -/
  | finishNotOpen
  /-- Code 4, LEN_OVERFLOW. -/
  | lenOverflow
deriving DecidableEq, Repr

/-- V, the working registers a..h (R16). -/
structure WorkRegs where
  a : Word
  b : Word
  c : Word
  d : Word
  e : Word
  f : Word
  g : Word
  h : Word
deriving DecidableEq, Repr

/-- The block's own state: everything that R15 to R27 name. -/
structure Regs where
  /-- H[0..7], the hash state (R15). -/
  h : Vector Word 8
  /-- V, the working registers (R16). -/
  v : WorkRegs
  /-- W[0..63], the message schedule (R17). -/
  w : Vector Word 64
  /-- BUF[0..63], the block buffer (R18). -/
  buf : Vector Byte 64
  /-- D[0..31], the digest register (R19). -/
  d : Vector Byte 32
  /-- BITLEN (R21). -/
  bitlen : BitLen
  /-- BUFCNT, 6 bits (R22). -/
  bufcnt : Fin 64
  /-- PHASE (R23). -/
  phase : Phase
  /-- SEQ (R24). -/
  seq : Seq
  /-- PAD2 (R25). -/
  pad2 : Bool
  /-- LENERR (R26). -/
  lenerr : Bool
  /-- CMDERR (R26). -/
  cmderr : Bool
  /-- ECAUSE (R26, R111). -/
  ecause : Cause
  /-- DATA_IN (R27). -/
  dataIn : Word
deriving DecidableEq, Repr

/-- The access sizes a bus request can name, 1, 2, 4 or 8 bytes (R97, port `size`). -/
inductive AccessSize where
  | byte
  | half
  | word
  | double
deriving DecidableEq, Repr

/-- A host transaction (R98): BusRead or BusWrite at a byte offset from BASE. -/
inductive Txn where
  | read (off : Nat) (size : AccessSize)
  | write (off : Nat) (size : AccessSize) (data : Word)
deriving DecidableEq, Repr

/-- Whom the interleaving lets move next (R108). The model's own, for the free choice among enabled events (log 1). -/
inductive Turn where
  | host
  | sequencer
  | reset
deriving DecidableEq, Repr

/-- The bus response to a transaction (R98). -/
inductive Reply where
  /-- OKAY to a read, with the data. -/
  | okayData (data : Word)
  /-- OKAY to a write. -/
  | okay
  /-- BUSERR (R44, R112). -/
  | busErr
  /-- The offset is not of this block, which gives no answer (R40): the answer is the platform's and unknown here. -/
  | notDecoded
deriving DecidableEq, Repr

/-- The machine: the block, and the model's fields for what stands outside it. -/
structure State where
  /-- The block's own state (R14 to R27). -/
  regs : Regs
  /-- The host's transactions that are not yet completed, oldest first (R49, R99). The model's own (log 5). -/
  host : List Txn
  /-- Who moves in the steps to come (R108). The model's own (log 1). -/
  turns : List Turn
  /-- The response given in the last step, if it completed a transaction (R97, R98). The model's own (log 6). -/
  reply : Option Reply
deriving DecidableEq, Repr

/-- Why a step stops with a fault: there is no reason. The block has no trap and no stuck state, its micro-steps raise no
error, and every event has an effect (R108, R109), so this inductive is closed with no constructor; nobody raises it. -/
inductive Fault where
deriving DecidableEq, Repr

/-- Why a step is refused. -/
inductive Refusal where
  /-- A command that has no meaning yet, by its mnemonic; raised only by an arm of `exec`. Safe. No arm raises it. -/
  | notModelled (mnemonic : String)
deriving DecidableEq, Repr

/-- The block after reset (R125). BUF, W and V are unspecified there; the zeros are the model's choice (log 4). -/
def Regs.reset : Regs where
  h := Vector.replicate 8 0
  v := ⟨0, 0, 0, 0, 0, 0, 0, 0⟩
  w := Vector.replicate 64 0
  buf := Vector.replicate 64 0
  d := Vector.replicate 32 0
  bitlen := 0
  bufcnt := 0
  phase := .idle
  seq := .idle
  pad2 := false
  lenerr := false
  cmderr := false
  ecause := .none
  dataIn := 0

/-- The machine right after reset (R125), with no host transaction pending (log 8). -/
def State.reset : State where
  regs := Regs.reset
  host := []
  turns := []
  reply := none

end Sys2Proof.Machine
end

