-- ==== Sys2Proof/Machine/Ops.lean ====
section
/-! DEFINITION. The shared operations over the block's state: recording an error (the block's one way of taking an
exception, 60_exceptions.md R109, R110), clearing the record (R115), loading a block (41_scheduler.md R78), and lifting a
change of the block to the machine. -/

namespace Sys2Proof.Machine

/-- `raise Error(code)` (R110): the first cause is kept, and LENERR or CMDERR is set. Nothing else is saved and control
goes nowhere (R114); the caller performs no more of its command (R109). It is called with the codes 1 to 4 (log 18). -/
def Regs.raiseError (r : Regs) (c : Cause) : Regs :=
  { r with
    ecause := if r.ecause = .none then c else r.ecause
    lenerr := r.lenerr || decide (c = .lenOverflow)
    cmderr := r.cmderr || decide (c ≠ .lenOverflow) }

/-- The record of errors cleared, as INIT does (R104, R115). There is no other return from an error but reset. -/
def Regs.clearErrors (r : Regs) : Regs := { r with lenerr := false, cmderr := false, ecause := .none }

/-- W[j] of a loaded block for j = 0..15: four buffer bytes, big-endian (R41 item 1, R78). -/
def loadWord (buf : Vector Byte 64) (j : Fin 16) : Word :=
  be32 buf[4 * j.val] buf[4 * j.val + 1] buf[4 * j.val + 2] buf[4 * j.val + 3]

/-- V as a copy of H (R78). -/
def WorkRegs.ofHash (h : Vector Word 8) : WorkRegs := ⟨h[0], h[1], h[2], h[3], h[4], h[5], h[6], h[7]⟩

/-- V[0..7] in the order of R89: V[0] = a to V[7] = h. -/
def WorkRegs.toVector (v : WorkRegs) : Vector Word 8 := #v[v.a, v.b, v.c, v.d, v.e, v.f, v.g, v.h]

/-- LOADBLK (R78): W[0..15] from BUF, V from H, SEQ to S_SCHED(16). W[16..63] keep their contents. -/
def Regs.loadBlock (r : Regs) : Regs :=
  { r with
    w := Vector.ofFn fun j : Fin 64 => if lt : j.val < 16 then loadWord r.buf ⟨j.val, lt⟩ else r.w[j.val]
    v := WorkRegs.ofHash r.h
    seq := .sched 0 }

/-- A change of the block alone. -/
def State.onRegs (s : State) (change : Regs → Regs) : State := { s with regs := change s.regs }

/-- The machine gives a bus response. -/
def State.answer (s : State) (rep : Reply) : State := { s with reply := some rep }

/-- The start of a step: the turn is spent, and no response has been given in this step yet (log 6). -/
def State.tick (s : State) : State := { s with turns := s.turns.tail, reply := none }

/-- The host's oldest transaction leaves its list, being completed. -/
def State.dropTxn (s : State) : State := { s with host := s.host.tail }

end Sys2Proof.Machine
end

