-- ==== Sys2Proof/Machine/Command.lean ====
section
/-! DEFINITION. The commands NOP and INIT and the two reserved rows (44_host_interface.md R103 to R105). -/

namespace Sys2Proof.Machine

/-- NOP: no state change (R103). -/
def execNop (s : State) : Host.Outcome State Fault Refusal := .next s

/-- INIT (R104): a new transaction; BUF, W, V, SEQ and DATA_IN keep their contents. -/
def Regs.init (r : Regs) : Regs :=
  { r.clearErrors with
    h := initialHash
    bitlen := 0
    bufcnt := 0
    pad2 := false
    d := Vector.replicate 32 0
    phase := .absorb }

/-- INIT (R104). -/
def execInit (s : State) : Host.Outcome State Fault Refusal := .next (s.onRegs Regs.init)

/-- A reserved opcode 0x4 to 0x7 only records Error(1) (R57, R105); which one it was is not kept (R111). -/
def execReserved4to7 (_op : BitVec 4) (s : State) : Host.Outcome State Fault Refusal :=
  .next (s.onRegs fun r => r.raiseError .reservedOp)

/-- A reserved opcode 0x8 to 0xF only records Error(1) (R57, R105); which one it was is not kept (R111). -/
def execReserved8toF (_op : BitVec 4) (s : State) : Host.Outcome State Fault Refusal :=
  .next (s.onRegs fun r => r.raiseError .reservedOp)

end Sys2Proof.Machine
end

