-- ==== Sys2Proof/Machine/Padder.lean ====
section
/-! DEFINITION. The padder: the commands ABSORB and FINISH and the micro-step PAD2 (40_padder.md R66 to R70). -/

namespace Sys2Proof.Machine

/-- One turn of ABSORB's loop (R66 lines 4 to 8): a byte goes to BUF[BUFCNT]; the 64th loads the block, and BUFCNT is 0
again. The block is loaded before a later byte overwrites BUF (R68). -/
def Regs.appendByte (r : Regs) (b : Byte) : Regs :=
  let put := { r with buf := r.buf.set r.bufcnt.val b }
  if r.bufcnt = 63 then { put.loadBlock with bufcnt := 0 } else { put with bufcnt := r.bufcnt + 1 }

/-- The length check of R66 line 2: BITLEN + 8·n ≥ 2^64, in exact arithmetic (R9, R67). -/
def Regs.wouldOverflow (r : Regs) (n : Nat) : Bool := decide (2 ^ 64 ≤ r.bitlen.toNat + 8 * n)

/-- ABSORB accepts its bytes: a transaction is open and the length fits (R66 lines 1 and 2). -/
def Regs.accepts (r : Regs) (n : Nat) : Bool := decide (r.phase = .absorb) && !r.wouldOverflow n

/-- ABSORB of n bytes (R66): the phase is checked before the length (R113 item 1), and a rejected command appends nothing. -/
def Regs.absorb (r : Regs) (n : Nat) : Regs :=
  if r.phase ≠ .absorb then r.raiseError .absorbNotOpen
  else if r.wouldOverflow n then { r.raiseError .lenOverflow with phase := .error }
  else
    let filled := (lanes r.dataIn n).foldl Regs.appendByte r
    { filled with bitlen := r.bitlen + BitVec.ofNat 64 (8 * n) }

/-- ABSORB (R66). -/
def execAbsorb (nb : BitVec 2) (s : State) : Host.Outcome State Fault Refusal :=
  .next (s.onRegs fun r => r.absorb (absorbCount nb))

/-- BUF as FINISH leaves it, for r = BUFCNT (R69 lines 3 to 10): the message bytes below r, the marker at r, zeros, and the
length in 56..63 when it fits (r ≤ 55). -/
def finalBlock (buf : Vector Byte 64) (r : Fin 64) (len : BitLen) : Vector Byte 64 :=
  Vector.ofFn fun p : Fin 64 =>
    if p < r then buf[p.val]
    else if p = r then 0x80
    else if at56 : 56 ≤ p.val then (if r.val ≤ 55 then be64 len ⟨p.val - 56, by omega⟩ else 0)
    else 0

/-- FINISH (R69). -/
def Regs.finish (r : Regs) : Regs :=
  if r.phase ≠ .absorb then r.raiseError .finishNotOpen
  else
    let padded := { r with
      buf := finalBlock r.buf r.bufcnt r.bitlen
      pad2 := decide (56 ≤ r.bufcnt.val) }
    { padded.loadBlock with bufcnt := 0, phase := .final }

/-- FINISH (R69). -/
def execFinish (s : State) : Host.Outcome State Fault Refusal := .next (s.onRegs Regs.finish)

/-- The second padding block (R70 lines 1 and 2): 56 zeros and the length. -/
def lengthBlock (len : BitLen) : Vector Byte 64 :=
  Vector.ofFn fun p : Fin 64 => if at56 : 56 ≤ p.val then be64 len ⟨p.val - 56, by omega⟩ else 0

/-- The micro-step PAD2 (R70). -/
def Regs.padTwo (r : Regs) : Regs :=
  let padded := { r with buf := lengthBlock r.bitlen, pad2 := false }
  padded.loadBlock

end Sys2Proof.Machine
end

