-- ==== Sys2Proof/Machine/Dispatch.lean ====
section
/-! DEFINITION. `Execute(cmd)` of 44_host_interface.md R102: one arm for each command. It is reached only when BUSY = 0
(R101): the hold is decided before it, in the step (log 14). -/

namespace Sys2Proof.Machine

def exec (i : Instr) (s : State) : Host.Outcome State Fault Refusal :=
  match i with
  | .nop => Sys2Proof.Machine.execNop s
  | .init => Sys2Proof.Machine.execInit s
  | .absorb nb => Sys2Proof.Machine.execAbsorb nb s
  | .finish => Sys2Proof.Machine.execFinish s
  | .reserved4to7 op => Sys2Proof.Machine.execReserved4to7 op s
  | .reserved8toF op => Sys2Proof.Machine.execReserved8toF op s

end Sys2Proof.Machine
end

