-- ==== Sys2Proof/Machine/Flags.lean ====
section
/-! DEFINITION. The derived signals BUSY and DONE, the codes of PHASE and ECAUSE, and the STATUS word
(10_state.md R23, R28, R30; 60_exceptions.md R111). -/

namespace Sys2Proof.Machine

/-- The 3-bit code of a phase (R23). -/
def Phase.code : Phase → BitVec 3
  | .idle => 0
  | .absorb => 1
  | .final => 2
  | .done => 3
  | .error => 4

/-- The 4-bit code of an error cause (R111). -/
def Cause.code : Cause → BitVec 4
  | .none => 0
  | .reservedOp => 1
  | .absorbNotOpen => 2
  | .finishNotOpen => 3
  | .lenOverflow => 4

/-- `BUSY = (SEQ ≠ S_IDLE)` (R28). -/
def Regs.busy (r : Regs) : Bool := r.seq != .idle

/-- `DONE = (PHASE = P_DONE)` (R28). -/
def Regs.done (r : Regs) : Bool := r.phase == .done

/-- A flag as the least significant bit of a word. -/
def flagBit (b : Bool) : Word := if b then 1 else 0

/-- The STATUS word, by the formula of R30; the reserved bits read 0. -/
def Regs.status (r : Regs) : Word :=
  flagBit r.busy ||| flagBit r.done <<< 1 ||| flagBit r.lenerr <<< 2 ||| flagBit r.cmderr <<< 3 |||
    r.phase.code.setWidth 32 <<< 4 ||| BitVec.ofNat 32 r.bufcnt.val <<< 8 ||| r.ecause.code.setWidth 32 <<< 16

end Sys2Proof.Machine
end

