-- ==== Sys2Proof/Machine/Window.lean ====
section
/-! DEFINITION. The register window: the map of R29, the access check of R44, Read and Write of R100 and R101, and the bus
ports of R97 (10_state.md, 20_memory.md, 44_host_interface.md). -/

namespace Sys2Proof.Machine

/-- A register of the window (R29). -/
inductive Reg where
  | ctrl
  | status
  | dataIn
  | bitlenLo
  | bitlenHi
  | digest (k : Fin 8)
  | hstate (k : Fin 8)
  /-- A reserved offset: reads 0, writes ignored (R40). -/
  | reserved
deriving DecidableEq, Repr

/-- The register at an aligned offset below 0x80 (R29). No access asks it for another offset (R98, log 18). -/
def regAt (off : Nat) : Reg :=
  if off = 0x00 then .ctrl
  else if off = 0x04 then .status
  else if off = 0x08 then .dataIn
  else if off = 0x10 then .bitlenLo
  else if off = 0x14 then .bitlenHi
  else if inDigest : 0x20 ≤ off ∧ off < 0x40 then .digest ⟨(off - 0x20) / 4, by omega⟩
  else if inHstate : 0x40 ≤ off ∧ off < 0x60 then .hstate ⟨(off - 0x40) / 4, by omega⟩
  else .reserved

/-- What an accepted read of a register returns (R30 to R33, R100). -/
def Regs.readReg (r : Regs) : Reg → Word
  | .ctrl => 0
  | .status => r.status
  | .dataIn => r.dataIn
  | .bitlenLo => r.bitlen.extractLsb' 0 32
  | .bitlenHi => r.bitlen.extractLsb' 32 32
  | .digest k => be32 r.d[4 * k.val] r.d[4 * k.val + 1] r.d[4 * k.val + 2] r.d[4 * k.val + 3]
  | .hstate k => r.h[k.val]
  | .reserved => 0

/-- Read(off) (R100). -/
def Regs.read (r : Regs) (off : Nat) : Word := r.readReg (regAt off)

/-- Write(off, data) for every register but CTRL, whose write is a command (R101): only DATA_IN takes the data. -/
def Regs.writeReg (r : Regs) (data : Word) : Reg → Regs
  | .dataIn => { r with dataIn := data }
  | _ => r

/-- The byte count of an access size (R97, port `size`). -/
def AccessSize.bytes : AccessSize → Nat
  | .byte => 1
  | .half => 2
  | .word => 4
  | .double => 8

/-- The offset of a transaction. -/
def Txn.off : Txn → Nat
  | .read off _ => off
  | .write off _ _ => off

/-- The access size of a transaction. -/
def Txn.size : Txn → AccessSize
  | .read _ size => size
  | .write _ size _ => size

/-- The offset lies in the window; any other is not for this block (R39, R40). -/
def Txn.forThisBlock (t : Txn) : Bool := decide (t.off < 0x80)

/-- `BusAccessOK` (R44): an aligned 32-bit access in the window. -/
def Txn.accessOK (t : Txn) : Bool := decide (t.size.bytes = 4 ∧ t.off % 4 = 0 ∧ t.off < 0x80)

/-- The command word of an accepted write to CTRL; `none` for every other transaction (R98, R101, R113 item 2). -/
def Txn.command : Txn → Option Word
  | .read _ _ => none
  | .write off size data => if (Txn.write off size data).accessOK ∧ regAt off = .ctrl then some data else none

/-- A transaction is held: a CTRL write while BUSY, and no other (R99). -/
def Regs.holds (r : Regs) (t : Txn) : Bool := t.command.isSome && r.busy

/-- A transaction that is no command, checked in the order of R98: not for this block; BUSERR; a read; a write. -/
def State.access (s : State) (t : Txn) : State :=
  if !t.forThisBlock then s.answer .notDecoded
  else if !t.accessOK then s.answer .busErr
  else match t with
    | .read off _ => s.answer (.okayData (s.regs.read off))
    | .write off _ data => (s.answer .okay).onRegs fun r => r.writeReg data (regAt off)

/-- The request ports while `req` is 1 (R97). -/
structure RequestPorts where
  we : Bool
  addr : BitVec 7
  size : BitVec 2
  wdata : Word
deriving DecidableEq, Repr

/-- The access size a `size` port value names: log2 of the byte count (R97). -/
def AccessSize.ofPort (size : BitVec 2) : AccessSize :=
  if size = 0 then .byte else if size = 1 then .half else if size = 2 then .word else .double

/-- The transaction the request ports present (R97, R98). -/
def RequestPorts.txn (p : RequestPorts) : Txn :=
  if p.we then .write p.addr.toNat (AccessSize.ofPort p.size) p.wdata
  else .read p.addr.toNat (AccessSize.ofPort p.size)

/-- `ready`: this block completed a transaction in the last step (R97, log 6, log 7). -/
def State.ready (s : State) : Bool :=
  match s.reply with
  | none => false
  | some .notDecoded => false
  | some _ => true

/-- `err`, the BUSERR response, where it is valid: `none` while `ready` is 0, when R97 gives it no value (log 6). -/
def State.err (s : State) : Option Bool := if s.ready then some (s.reply == some .busErr) else none

/-- `rdata`, where it is valid: after an accepted read; `none` elsewhere, when R97 gives it no value (log 6). -/
def State.rdata (s : State) : Option Word :=
  match s.reply with
  | some (.okayData data) => some data
  | _ => none

end Sys2Proof.Machine
end

