-- ==== Sys2Proof/Machine/Interleave.lean ====
section
/-! DEFINITION. Which event a step takes: the events of R108, whether each is enabled, and the choice among them that the
state's `turns` makes (44_host_interface.md R99, R106, R108; log 1, log 2, log 3). -/

namespace Sys2Proof.Machine

/-- What one step does. -/
inductive Move where
  /-- HostRead or HostWrite: the host's oldest transaction is performed. -/
  | host (t : Txn)
  /-- SeqStep. -/
  | sequencer
  /-- Reset. -/
  | reset
  /-- No event is enabled: S_IDLE and no host event (R108). Nothing changes (R124). -/
  | quiet
deriving DecidableEq, Repr

/-- The host's next event, when it is enabled: there is a transaction, and it is not held (R99, R108). -/
def State.hostEvent (s : State) : Option Txn :=
  match s.host with
  | [] => none
  | t :: _ => if s.regs.holds t then none else some t

/-- The host moves if it can, else the sequencer if it can (log 3). -/
def State.hostFirst (s : State) : Move :=
  match s.hostEvent with
  | some t => .host t
  | none => if s.regs.busy then .sequencer else .quiet

/-- The sequencer moves if it can, else the host if it can (log 3). -/
def State.sequencerFirst (s : State) : Move :=
  if s.regs.busy then .sequencer
  else match s.hostEvent with
    | some t => .host t
    | none => .quiet

/-- The move of the next step: what the first turn says, or the sequencer first when no turn is left (log 2). -/
def State.nextMove (s : State) : Move :=
  match s.turns with
  | [] => s.sequencerFirst
  | .sequencer :: _ => s.sequencerFirst
  | .host :: _ => s.hostFirst
  | .reset :: _ => .reset

end Sys2Proof.Machine
end

