-- ==== Sys2Proof/Machine/Compressor.lean ====
section
/-! DEFINITION. The compressor: Σ0, Σ1, Ch, Maj and the micro-steps ROUND and FF (42_compressor.md R81 to R84, R88, R89). -/

namespace Sys2Proof.Machine

/-- Σ0, "big sigma 0" (R81). -/
def bigSigma0 (x : Word) : Word := rotr x 2 ^^^ rotr x 13 ^^^ rotr x 22

/-- Σ1, "big sigma 1" (R82). -/
def bigSigma1 (x : Word) : Word := rotr x 6 ^^^ rotr x 11 ^^^ rotr x 25

/-- Ch: bit by bit, e chooses f or g (R83). -/
def ch (e f g : Word) : Word := (e &&& f) ^^^ (~~~e &&& g)

/-- Maj: bit by bit, the majority (R84). -/
def maj (a b c : Word) : Word := (a &&& b) ^^^ (a &&& c) ^^^ (b &&& c)

/-- T1 of ROUND (R88), for the round's K and W words. -/
def WorkRegs.t1 (v : WorkRegs) (k w : Word) : Word := v.h + bigSigma1 v.e + ch v.e v.f v.g + k + w

/-- T2 of ROUND (R88). -/
def WorkRegs.t2 (v : WorkRegs) : Word := bigSigma0 v.a + maj v.a v.b v.c

/-- The simultaneous shift of the working registers in ROUND (R88). -/
def WorkRegs.round (v : WorkRegs) (k w : Word) : WorkRegs where
  a := v.t1 k w + v.t2
  b := v.a
  c := v.b
  d := v.c
  e := v.d + v.t1 k w
  f := v.e
  g := v.f
  h := v.g

/-- SEQ after ROUND(i): S_ROUND(i+1), or S_FF after i = 63 (R88, R106). -/
def Seq.afterRound (i : Fin 64) : Seq :=
  if lt : i.val + 1 < 64 then .round ⟨i.val + 1, lt⟩ else .ff

/-- The micro-step ROUND(i) (R88). -/
def Regs.round (r : Regs) (i : Fin 64) : Regs :=
  { r with v := r.v.round roundK[i.val] r.w[i.val], seq := Seq.afterRound i }

/-- The feed-forward sum of FF: H[k] + V[k] for every k (R89). -/
def feedForward (h : Vector Word 8) (v : WorkRegs) : Vector Word 8 :=
  Vector.ofFn fun k : Fin 8 => h[k.val] + v.toVector[k.val]

/-- SEQ after FF, the sequencer's one branch (R89, R106). -/
def Seq.afterFF (phase : Phase) (pad2 : Bool) : Seq :=
  if phase = .final then (if pad2 then .pad2 else .ser) else .idle

/-- The micro-step FF (R89). -/
def Regs.feedForward (r : Regs) : Regs :=
  { r with h := Machine.feedForward r.h r.v, seq := Seq.afterFF r.phase r.pad2 }

end Sys2Proof.Machine
end

