-- ==== Sys2Proof/Machine/Scheduler.lean ====
section
/-! DEFINITION. The message scheduler: σ0, σ1 and the micro-step SCHED (41_scheduler.md R75, R76, R79). -/

namespace Sys2Proof.Machine

/-- σ0, "small sigma 0" (R75). -/
def smallSigma0 (x : Word) : Word := rotr x 7 ^^^ rotr x 18 ^^^ shr x 3

/-- σ1, "small sigma 1" (R76). -/
def smallSigma1 (x : Word) : Word := rotr x 17 ^^^ rotr x 19 ^^^ shr x 10

/-- The word SCHED(t) writes, for t = k + 16: σ1(W[t−2]) + W[t−7] + σ0(W[t−15]) + W[t−16] (R79). -/
def schedWord (w : Vector Word 64) (k : Fin 48) : Word :=
  smallSigma1 w[k.val + 14] + w[k.val + 9] + smallSigma0 w[k.val + 1] + w[k.val]

/-- SEQ after SCHED(t), t = k + 16: S_SCHED(t+1), or S_ROUND(0) after t = 63 (R79, R106). -/
def Seq.afterSched (k : Fin 48) : Seq :=
  if lt : k.val + 1 < 48 then .sched ⟨k.val + 1, lt⟩ else .round 0

/-- The micro-step SCHED(t), t = k + 16 (R79). -/
def Regs.sched (r : Regs) (k : Fin 48) : Regs :=
  { r with w := r.w.set (k.val + 16) (schedWord r.w k), seq := Seq.afterSched k }

end Sys2Proof.Machine
end

