-- ==== Sys2Proof/Machine/Serializer.lean ====
section
/-! DEFINITION. The digest serializer: the micro-step SER (43_serializer.md R93). -/

namespace Sys2Proof.Machine

/-- The digest bytes of a hash state: D[4k + j] = BYTE(H[k], j) (R41 item 3, R93). -/
def digestBytes (h : Vector Word 8) : Vector Byte 32 :=
  Vector.ofFn fun p : Fin 32 => byteOf h[p.val / 4] ⟨p.val % 4, by omega⟩

/-- The micro-step SER (R93): all 32 bytes at once, with DONE. -/
def Regs.serialize (r : Regs) : Regs :=
  { r with d := digestBytes r.h, phase := .done, seq := .idle }

end Sys2Proof.Machine
end

