-- ==== Sys2Proof/Machine/Sequencer.lean ====
section
/-! DEFINITION. The sequencer: the micro-step SEQ alone chooses (44_host_interface.md R106). -/

namespace Sys2Proof.Machine

/-- One micro-step (R106). At S_IDLE the sequencer has no step: nothing changes. -/
def Regs.microStep (r : Regs) : Regs :=
  match r.seq with
  | .idle => r
  | .sched k => r.sched k
  | .round i => r.round i
  | .ff => r.feedForward
  | .pad2 => r.padTwo
  | .ser => r.serialize

/-- `n` micro-steps, one after the other (R107). -/
def Regs.microSteps (r : Regs) : Nat → Regs
  | 0 => r
  | n + 1 => r.microStep.microSteps n

end Sys2Proof.Machine
end

