-- ==== Sys2Proof/Machine/Event.lean ====
section
/-! DEFINITION. What each event of 44_host_interface.md R108 does to the machine, each as one atomic change
(20_memory.md R45). -/

namespace Sys2Proof.Machine

/-- The host's transaction t is performed: a command by `exec`, any other access by the window (R98, R101, R102). -/
def State.perform (s : State) (t : Txn) : Host.Outcome State Fault Refusal :=
  match t.command with
  | some word => exec (decode word) (s.answer .okay)
  | none => .next (s.access t)

/-- The Reset event (R125); the host's transactions stay pending, a held write among them (R126). -/
def State.resetEvent (s : State) : State := s.onRegs fun _ => Regs.reset

/-- The move of one step is made. -/
def State.make (s : State) : Move → Host.Outcome State Fault Refusal
  | .host t => s.tick.dropTxn.perform t
  | .sequencer => .next (s.tick.onRegs Regs.microStep)
  | .reset => .next s.tick.resetEvent
  | .quiet => .next s.tick

end Sys2Proof.Machine
end

