-- ==== Sys2Proof/Machine/Step.lean ====
section
/-! DEFINITION. One step of the machine: one event of 44_host_interface.md R108. -/

namespace Sys2Proof.Machine

/-- One step: the event that `nextMove` chooses among the enabled ones. -/
def step (s : State) : Host.Outcome State Fault Refusal := s.make s.nextMove

/-- The command word w given to the machine so that the very next step runs it: the host's next transaction is the write of
w to CTRL, it is the host's turn, and the sequencer is idle, without which the write would be held (R99, log 15). -/
def State.withFetchWord (s : State) (nbits w : Nat) : State :=
  { s with
    regs := { s.regs with seq := .idle }
    host := .write 0x00 .word (BitVec.ofNat 32 (w % 2 ^ nbits)) :: s.host
    turns := .host :: s.turns }

end Sys2Proof.Machine
end

