-- ==== Sys2Proof/Machine/HostNotation.lean ====
section
/-! DEFINITION. The host notation of 30_encoding.md R61 to R63, as the bus transactions it stands for. Control flow belongs to
the host (R61) and is not part of the machine (log 13). -/

namespace Sys2Proof.Machine.HostNotation

/-- `off(<reg>)` (R29, R61); a reserved offset has no name, and 0x0C stands for it here. -/
def offsetOf : Reg → Nat
  | .ctrl => 0x00
  | .status => 0x04
  | .dataIn => 0x08
  | .bitlenLo => 0x10
  | .bitlenHi => 0x14
  | .digest k => 0x20 + 4 * k.val
  | .hstate k => 0x40 + 4 * k.val
  | .reserved => 0x0C

/-- `WR <reg>, <imm32>` (R61). -/
def wr (reg : Reg) (imm : Word) : Txn := .write (offsetOf reg) .word imm

/-- `RD <reg> -> <var>` (R61); the variable takes the reply's data. -/
def rd (reg : Reg) : Txn := .read (offsetOf reg) .word

/-- A command mnemonic: one CTRL write of the canonical word (R62). -/
def command (i : Instr) : Txn := wr .ctrl (encode i)

/-- `PUT.n <imm32>`, n = NB + 1 (R63). -/
def put (nb : BitVec 2) (imm : Word) : List Txn := [wr .dataIn imm, command (.absorb nb)]

/-- One round of `WAITIDLE`: `RD STATUS -> s` (R63). -/
def waitIdleRound : List Txn := [rd .status]

/-- `WAITIDLE` goes round again: `s[0] = 1` (R63). -/
def waitIdleAgain (status : Word) : Bool := status.getLsbD 0

/-- `READDIGEST`: DIGEST0 to DIGEST7, in order (R63). -/
def readDigest : List Txn := (List.finRange 8).map fun k => rd (.digest k)

/-- `loop N times:` repeats its lines and issues no transaction of its own (R61). -/
def loop (n : Nat) (lines : List Txn) : List Txn := (List.replicate n lines).flatten

end Sys2Proof.Machine.HostNotation
end

