-- ==== Sys2Proof/Machine/Algorithm.lean ====
section
/-! DEFINITION. The source's pure functions, transcribed: pad (40_padder.md R64), expand (41_scheduler.md R77), compress
(42_compressor.md R87), assemble and sha256 (43_serializer.md R92, R95). The block is claimed to compute them; no step of the
machine calls them. -/

namespace Sys2Proof.Machine.Algorithm

/-- k = (55 − L) mod 64, the number of zero bytes (R64); 119 = 55 + 64 keeps the difference a natural number. -/
def zeroCount (len : Nat) : Nat := (119 - len % 64) % 64

/-- `pad(m) = m ‖ [0x80] ‖ [0x00] * k ‖ BE64(8·L)` (R64). The spec defines it for L ≤ 2^61 − 1 only. DESIGN CHOICE: for a
longer m the model's function still has a value, with the length field taken modulo 2^64 (log 18). No message the block
accepts is longer (R67). -/
def pad (m : List Byte) : List Byte :=
  m ++ [0x80] ++ List.replicate (zeroCount m.length) 0 ++
    (List.finRange 8).map (be64 (BitVec.ofNat 64 (8 * m.length)))

/-- NB(L) = floor((L + 8) / 64) + 1, the number of blocks of pad(m) (R65). -/
def blockCount (len : Nat) : Nat := (len + 8) / 64 + 1

/-- The consecutive 64-byte blocks of a byte sequence (R95), which is a whole number of them (R65). Of any other sequence the
last, shorter part is left out: DESIGN CHOICE, never used (log 18). -/
def blocks64 (bytes : List Byte) : List (Vector Byte 64) :=
  (List.range (bytes.length / 64)).map fun q => Vector.ofFn fun p : Fin 64 => bytes.getD (64 * q + p.val) 0

/-- expand's next word, in the source's order: W[t−16] + σ0(W[t−15]) + W[t−7] + σ1(W[t−2]), t = k + 16 (R77). -/
def expandWord (w : Vector Word 64) (k : Fin 48) : Word :=
  w[k.val] + smallSigma0 w[k.val + 1] + w[k.val + 9] + smallSigma1 w[k.val + 14]

/-- The first 16 words of the schedule, big-endian from the block (R77); the others are still to come. -/
def firstWords (block : Vector Byte 64) : Vector Word 64 :=
  Vector.ofFn fun j : Fin 64 => if lt : j.val < 16 then loadWord block ⟨j.val, lt⟩ else 0

/-- `expand(B)` (R77). -/
def expand (block : Vector Byte 64) : Vector Word 64 :=
  (List.finRange 48).foldl (fun w k => w.set (k.val + 16) (expandWord w k)) (firstWords block)

/-- One round of `compress` (R87): `h←g, g←f, f←e, e←d+T1, d←c, c←b, b←a, a←T1+T2`. -/
def compressRound (v : WorkRegs) (k w : Word) : WorkRegs :=
  let t1 := v.h + bigSigma1 v.e + ch v.e v.f v.g + k + w
  let t2 := bigSigma0 v.a + maj v.a v.b v.c
  ⟨t1 + t2, v.a, v.b, v.c, v.d + t1, v.e, v.f, v.g⟩

/-- `compress(W, S)` (R87). -/
def compress (w : Vector Word 64) (s : Vector Word 8) : Vector Word 8 :=
  let v := (List.finRange 64).foldl (fun v i => compressRound v roundK[i.val] w[i.val]) (WorkRegs.ofHash s)
  #v[s[0] + v.a, s[1] + v.b, s[2] + v.c, s[3] + v.d, s[4] + v.e, s[5] + v.f, s[6] + v.g, s[7] + v.h]

/-- The hash state after a list of blocks, threaded through in block order (R91, R95). -/
def hashBlocks (s : Vector Word 8) (blocks : List (Vector Byte 64)) : Vector Word 8 :=
  blocks.foldl (fun s b => compress (expand b) s) s

/-- `assemble(S)`: each word most significant byte first, words in order (R92). -/
def assemble (s : Vector Word 8) : List Byte :=
  s.toList.flatMap fun w => (List.finRange 4).map (byteOf w)

/-- `sha256(m)` (R95), for L ≤ 2^61 − 1; its value for a longer m is the model's, through `pad`: DESIGN CHOICE (log 18). -/
def sha256 (m : List Byte) : List Byte := assemble (hashBlocks initialHash (blocks64 (pad m)))

end Sys2Proof.Machine.Algorithm
end

