-- ==== Sys2Proof/Safety.lean ====
section
/-! DEFINITION. The terms claims are made in: the invariant of the reachable states (10_state.md R36, R38), the part of the
state that a step can still read (R37), and the message and the blocks of a run (40_padder.md R71, R72). -/

namespace Sys2Proof.Machine

/-- What holds of the block in every reachable state. Each field says which rule it is; `tail` and `serialNoPad2` are needed
to make the others inductive and follow from R106. -/
structure Regs.Inv (r : Regs) : Prop where
  /-- R36 (a). -/
  busyPhase : r.seq ≠ .idle → r.phase = .absorb ∨ r.phase = .final
  /-- R36 (b). -/
  finalBusy : r.phase = .final → r.seq ≠ .idle
  /-- R36 (c). -/
  pad2Final : r.pad2 = true → r.phase = .final
  /-- S_PAD2 and S_SER are entered from P_FINAL only (R106). -/
  tail : r.seq = .pad2 ∨ r.seq = .ser → r.phase = .final
  /-- S_SER is entered with PAD2 = 0 only (R106). -/
  serialNoPad2 : r.seq = .ser → r.pad2 = false
  /-- R36 (e). -/
  count : r.phase = .absorb ∨ r.phase = .error → r.bufcnt.val = r.bitlen.toNat / 8 % 64
  /-- R36 (f). -/
  countZero : r.phase = .final ∨ r.phase = .done → r.bufcnt = 0
  /-- R21: BITLEN is a multiple of 8; it is then at most 2^64 − 8. -/
  wholeBytes : r.bitlen.toNat % 8 = 0
  /-- R67, R93: LENERR is set exactly in P_ERROR. -/
  lenerrPhase : r.lenerr = true ↔ r.phase = .error
  /-- R110, R111: ECAUSE is 0 exactly when no flag is set. -/
  causeFlags : r.ecause = .none ↔ r.lenerr = false ∧ r.cmderr = false
  /-- R38. -/
  digestDone : r.phase = .done →
    ∀ (k : Fin 8) (j : Fin 4), r.d[4 * k.val + j.val] = byteOf r.h[k.val] j
  /-- R131: DIGEST reads 0 except in P_DONE. -/
  digestElse : r.phase ≠ .done → ∀ p : Fin 32, r.d[p.val] = 0
  /-- R36 (d), R125: in P_IDLE no command has been accepted since reset, so H and BITLEN are as reset left them. -/
  untouched : r.phase = .idle → r.bitlen = 0 ∧ r.bufcnt = 0 ∧ ∀ k : Fin 8, r.h[k.val] = 0

/-- What of W and V the rest of the block in flight can still read, by the sequencer's position (R37). -/
def Regs.SameInFlight (r t : Regs) : Seq → Prop
  | .idle => True
  | .sched k => r.v = t.v ∧ ∀ j : Fin 64, j.val < k.val + 16 → r.w[j.val] = t.w[j.val]
  | .round _ => r.v = t.v ∧ r.w = t.w
  | .ff => r.v = t.v
  | .pad2 => True
  | .ser => True

/-- The two blocks differ at most in cells of BUF, W and V that are unset or stale: that no step may read before it is
written (R37). BUF counts below BUFCNT only. -/
structure Regs.SameLive (r t : Regs) : Prop where
  h : r.h = t.h
  d : r.d = t.d
  bitlen : r.bitlen = t.bitlen
  bufcnt : r.bufcnt = t.bufcnt
  phase : r.phase = t.phase
  seq : r.seq = t.seq
  pad2 : r.pad2 = t.pad2
  lenerr : r.lenerr = t.lenerr
  cmderr : r.cmderr = t.cmderr
  ecause : r.ecause = t.ecause
  dataIn : r.dataIn = t.dataIn
  buf : ∀ p : Fin 64, p < r.bufcnt → r.buf[p.val] = t.buf[p.val]
  inFlight : r.SameInFlight t r.seq

/-- The two machines differ at most in unset or stale cells of BUF, W and V. -/
structure State.SameLive (s t : State) : Prop where
  regs : s.regs.SameLive t.regs
  host : s.host = t.host
  turns : s.turns = t.turns
  reply : s.reply = t.reply

/-- `k` steps of the machine. -/
def run (k : Nat) (s : State) : Host.Outcome State Fault Refusal := Sys2Proof.core.run k s

/-- The command the next step performs, if its event is an accepted CTRL write (R98, R102). -/
def State.nextCommand (s : State) : Option Instr :=
  match s.nextMove with
  | .host t => t.command.map decode
  | .sequencer => none
  | .reset => none
  | .quiet => none

/-- The bytes an ABSORB of n bytes appends to the message: none if it is rejected (R71). -/
def Regs.absorbed (r : Regs) (n : Nat) : List Byte := if r.accepts n then lanes r.dataIn n else []

/-- The bytes the next step appends to the message of the transaction (R71). -/
def State.absorbs (s : State) : List Byte :=
  match s.nextCommand with
  | some (.absorb nb) => s.regs.absorbed (absorbCount nb)
  | some .nop => []
  | some .init => []
  | some .finish => []
  | some (.reserved4to7 _) => []
  | some (.reserved8toF _) => []
  | none => []

/-- The block an ABSORB of n bytes completes: the bytes below BUFCNT and then the first lanes of DATA_IN (R66, R68). -/
def Regs.completedBlock (r : Regs) (n : Nat) : Vector Byte 64 :=
  Vector.ofFn fun p : Fin 64 =>
    if p < r.bufcnt then r.buf[p.val] else (lanes r.dataIn n).getD (p.val - r.bufcnt.val) 0

/-- The BUF contents that a LOADBLK of the next step reads, if it runs one (R78: inside ABSORB, FINISH or PAD2). -/
def State.loads (s : State) : List (Vector Byte 64) :=
  match s.nextCommand with
  | some (.absorb nb) =>
    if s.regs.accepts (absorbCount nb) ∧ 64 ≤ s.regs.bufcnt.val + absorbCount nb then
      [s.regs.completedBlock (absorbCount nb)]
    else []
  | some .finish =>
    if s.regs.phase = .absorb then [finalBlock s.regs.buf s.regs.bufcnt s.regs.bitlen] else []
  | some .nop => []
  | some .init => []
  | some (.reserved4to7 _) => []
  | some (.reserved8toF _) => []
  | none => if s.nextMove = .sequencer ∧ s.regs.seq = .pad2 then [lengthBlock s.regs.bitlen] else []

/-- The next step ends the transaction from outside: Reset, or an accepted INIT (00_scope.md R12). -/
def State.restarts (s : State) : Bool := s.nextMove == .reset || s.nextCommand == some .init

/-- The bytes the next `k` steps append (R71). -/
def messageOf : Nat → State → List Byte
  | 0, _ => []
  | k + 1, s =>
    s.absorbs ++
      match step s with
      | .next t => messageOf k t
      | .fault _ => []
      | .refused _ => []

/-- The blocks the next `k` steps load, in order (R72). -/
def blocksLoaded : Nat → State → List (Vector Byte 64)
  | 0, _ => []
  | k + 1, s =>
    s.loads ++
      match step s with
      | .next t => blocksLoaded k t
      | .fault _ => []
      | .refused _ => []

/-- The next `k` steps neither reset the block nor accept an INIT: the transaction goes on. -/
def sameTransaction : Nat → State → Bool
  | 0, _ => true
  | k + 1, s =>
    !s.restarts &&
      match step s with
      | .next t => sameTransaction k t
      | .fault _ => false
      | .refused _ => false

/-- `n` is the number of micro-steps after which the sequencer is first idle. -/
def Regs.IdleFirstAfter (r : Regs) (n : Nat) : Prop :=
  (r.microSteps n).seq = .idle ∧ ∀ m < n, (r.microSteps m).seq ≠ .idle

end Sys2Proof.Machine
end

