-- ==== Sys2Proof/Certificates/Slice0/Obligations.lean ====
section
/-! DEFINITION. The statements about SHA256-CORE, for the provers. Each docstring names the rules it formalises. -/

open Sys2Proof Sys2Proof.Machine

/-! ### Encoding (30_encoding.md) -/

/-- R54 to R58 on words written out bit by bit from the encoding, ignored bits set in some of them. -/
def Obligations.SampleWordsDecode : Prop :=
  decode 0x00000000#32 = .nop ∧ decode 0xFFFFFFF0#32 = .nop ∧
  decode 0xFFFFFFC1#32 = .init ∧ decode 0x00000031#32 = .init ∧
  decode 0x00000002#32 = .absorb 0 ∧ decode 0x00000012#32 = .absorb 1 ∧
  decode 0x00000022#32 = .absorb 2 ∧ decode 0x00000032#32 = .absorb 3 ∧ decode 0xFFFFFFF2#32 = .absorb 3 ∧
  decode 0x00000003#32 = .finish ∧
  decode 0x00000007#32 = .reserved4to7 0x7 ∧ decode 0x0000000F#32 = .reserved8toF 0xF

/-- R58: a word is a command exactly when its OP, and for ABSORB its NB, are that command's; the other bits are ignored. So
decoding undoes encoding, and no ignored bit matters. -/
def Obligations.DecodeReadsExactlyTheUsedBits : Prop :=
  ∀ (i : Instr) (word : Word), WellFormed i = true → (decode word = i ↔ word &&& usedBits i = encode i)

/-- R56, spec/opcode_table.json: every word fits exactly one row of the opcode table, the row of the command it decodes to,
and what is decoded is well formed. -/
def Obligations.EveryWordFitsOneOpcodeRow : Prop :=
  ∀ word : Word,
    (opcodeTable.filter fun row => row.fits word).map OpcodeRow.mnemonic = [(decode word).mnemonic] ∧
    WellFormed (decode word) = true

/-- R61, R62: the notation's registers lie at their offsets, and a command mnemonic, written as the notation expands it, runs
that command when the block is idle. -/
def Obligations.NotationCommandRunsItsCommand : Prop :=
  (∀ reg : Reg, regAt (HostNotation.offsetOf reg) = reg ∧ HostNotation.offsetOf reg % 4 = 0 ∧
    HostNotation.offsetOf reg < 0x80) ∧
  ∀ (i : Instr) (s : State) (rest : List Txn) (ts : List Turn),
    WellFormed i = true → s.regs.seq = .idle → s.host = HostNotation.command i :: rest → s.turns = .host :: ts →
    step s = exec i { s with host := rest, turns := ts, reply := some .okay }

/-! ### Primitives (00_scope.md, 41_scheduler.md, 42_compressor.md) -/

/-- R9, R10: concatenation and the byte slices, as numbers. -/
def Obligations.ByteOrderIsBigEndian : Prop :=
  (∀ b0 b1 b2 b3 : Byte,
    (be32 b0 b1 b2 b3).toNat = b0.toNat * 2 ^ 24 + b1.toNat * 2 ^ 16 + b2.toNat * 2 ^ 8 + b3.toNat) ∧
  (∀ (w : Word) (j : Fin 4), (byteOf w j).toNat = w.toNat / 2 ^ (24 - 8 * j.val) % 256) ∧
  (∀ (v : BitLen) (j : Fin 8), (be64 v j).toNat = v.toNat / 2 ^ (56 - 8 * j.val) % 256) ∧
  ∀ w : Word, be32 (byteOf w 0) (byteOf w 1) (byteOf w 2) (byteOf w 3) = w

/-- R73: bit b of rotr(x, n) is bit (b + n) mod 32 of x, for n in [1, 31]. -/
def Obligations.RotrMovesEachBit : Prop :=
  ∀ (x : Word) (n : Nat) (inRange : 1 ≤ n ∧ n ≤ 31) (b : Nat), b < 32 →
    (rotr x n inRange).getLsbD b = x.getLsbD ((b + n) % 32)

/-- R74, R75, R76, R81, R82: every bit of shr and of the four sigmas, with the amounts of the rules. A rotation by n brings
bit (b + n) mod 32 to bit b, a shift by n brings bit b + n, and 0 from beyond bit 31. -/
def Obligations.SigmasMixBitsByTheirAmounts : Prop :=
  ∀ (x : Word) (b : Nat), b < 32 →
    (∀ (n : Nat) (inRange : 1 ≤ n ∧ n ≤ 31),
      (shr x n inRange).getLsbD b = if b + n < 32 then x.getLsbD (b + n) else false) ∧
    (smallSigma0 x).getLsbD b =
      (x.getLsbD ((b + 7) % 32) ^^ x.getLsbD ((b + 18) % 32) ^^ (if b + 3 < 32 then x.getLsbD (b + 3) else false)) ∧
    (smallSigma1 x).getLsbD b =
      (x.getLsbD ((b + 17) % 32) ^^ x.getLsbD ((b + 19) % 32) ^^ (if b + 10 < 32 then x.getLsbD (b + 10) else false)) ∧
    (bigSigma0 x).getLsbD b =
      (x.getLsbD ((b + 2) % 32) ^^ x.getLsbD ((b + 13) % 32) ^^ x.getLsbD ((b + 22) % 32)) ∧
    (bigSigma1 x).getLsbD b =
      (x.getLsbD ((b + 6) % 32) ^^ x.getLsbD ((b + 11) % 32) ^^ x.getLsbD ((b + 25) % 32))

/-- R83, R84: Ch chooses and Maj takes the majority, bit by bit. -/
def Obligations.ChChoosesAndMajIsMajority : Prop :=
  ∀ (x y z : Word) (b : Nat),
    (ch x y z).getLsbD b = (if x.getLsbD b then y.getLsbD b else z.getLsbD b) ∧
    (maj x y z).getLsbD b =
      (x.getLsbD b && y.getLsbD b || x.getLsbD b && z.getLsbD b || y.getLsbD b && z.getLsbD b)

/-- R85: K[i] = floor(cbrt(p_i · 2^96)) mod 2^32 for the first 64 primes in order. -/
def Obligations.RoundConstantsAreCubeRoots : Prop :=
  (∀ n : Nat, n ∈ firstPrimes.toList ↔ n.Prime ∧ n ≤ 311) ∧ firstPrimes.toList.Pairwise (· < ·) ∧
  ∀ i : Fin 64, ∃ whole : Nat,
    (whole * 2 ^ 32 + roundK[i.val].toNat) ^ 3 ≤ firstPrimes[i.val] * 2 ^ 96 ∧
    firstPrimes[i.val] * 2 ^ 96 < (whole * 2 ^ 32 + roundK[i.val].toNat + 1) ^ 3

/-- R86: H0[k] = floor(sqrt(p_k · 2^64)) mod 2^32 for the first 8 primes. -/
def Obligations.InitialHashIsSquareRoots : Prop :=
  firstPrimes.toList.take 8 = [2, 3, 5, 7, 11, 13, 17, 19] ∧
  ∀ k : Fin 8, ∃ whole : Nat,
    (whole * 2 ^ 32 + initialHash[k.val].toNat) ^ 2 ≤ firstPrimes[k.val] * 2 ^ 64 ∧
    firstPrimes[k.val] * 2 ^ 64 < (whole * 2 ^ 32 + initialHash[k.val].toNat + 1) ^ 2

/-- R64, R65: the padded length, and k the least number of zero bytes that meets the source's condition. The rules speak of
L ≤ 2^61 − 1; what this says of a longer m is about the model's own extension of pad (log 18). -/
def Obligations.PaddedLengthIsWholeBlocks : Prop :=
  ∀ m : List Byte,
    (Algorithm.pad m).length = 64 * Algorithm.blockCount m.length ∧
    (Algorithm.pad m).length = m.length + 9 + Algorithm.zeroCount m.length ∧
    Algorithm.zeroCount m.length ≤ 63 ∧
    (m.length + 1 + Algorithm.zeroCount m.length) * 8 % 512 = 448 ∧
    (∀ fewer < Algorithm.zeroCount m.length, (m.length + 1 + fewer) * 8 % 512 ≠ 448) ∧
    (m.length % 64 ≤ 55 → Algorithm.blockCount m.length = (m.length + 9 + 63) / 64) ∧
    (56 ≤ m.length % 64 → Algorithm.blockCount m.length = m.length / 64 + 2)

/-- R77: what `expand` gives, word by word. -/
def Obligations.ExpandMeetsItsRecurrence : Prop :=
  ∀ block : Vector Byte 64,
    (∀ j : Fin 16, (Algorithm.expand block)[j.val] =
      be32 block[4 * j.val] block[4 * j.val + 1] block[4 * j.val + 2] block[4 * j.val + 3]) ∧
    ∀ k : Fin 48, (Algorithm.expand block)[k.val + 16] =
      (Algorithm.expand block)[k.val] + smallSigma0 (Algorithm.expand block)[k.val + 1] +
        (Algorithm.expand block)[k.val + 9] + smallSigma1 (Algorithm.expand block)[k.val + 14]

/-! ### Commands (40_padder.md, 44_host_interface.md, 60_exceptions.md) -/

/-- R103, R99: NOP changes nothing, in every phase; a write of any word with OP = 0 to an idle block only completes; and while
BUSY it is held. That the host's turn then goes to the sequencer, whose micro-step the step is, is the model's own reading of
R108 (log 3). -/
def Obligations.NopChangesNothing : Prop :=
  (∀ s : State, exec .nop s = .next s) ∧
  ∀ (s : State) (word : Word) (rest : List Txn) (ts : List Turn),
    word.extractLsb' 0 4 = 0#4 → s.host = .write 0x00 .word word :: rest → s.turns = .host :: ts →
    (s.regs.seq = .idle → step s = .next { s with host := rest, turns := ts, reply := some .okay }) ∧
    (s.regs.seq ≠ .idle → step s = .next { s with regs := s.regs.microStep, turns := ts, reply := none })

/-- R104: INIT opens a transaction from any state, two INITs are as one, and what STATUS, HSTATE and DIGEST then read. -/
def Obligations.InitOpensTransaction : Prop :=
  ∀ s : State, ∃ t : State, exec .init s = .next t ∧
    t = { s with regs := { s.regs with
      h := initialHash, bitlen := 0, bufcnt := 0, pad2 := false, lenerr := false, cmderr := false, ecause := .none,
      d := Vector.replicate 32 0, phase := .absorb } } ∧
    exec .init t = .next t ∧
    (s.regs.seq = .idle → t.regs.status = 0x00000010#32) ∧
    (∀ k : Fin 8, t.regs.read (0x40 + 4 * k.val) = initialHash[k.val] ∧ t.regs.read (0x20 + 4 * k.val) = 0)

/-- R105: a reserved opcode of either row, in every state, sets CMDERR and records cause 1 if none is recorded; nothing else. -/
def Obligations.ReservedOpcodeOnlyRecords : Prop :=
  ∀ (s : State) (op : BitVec 4) (i : Instr), i = .reserved4to7 op ∨ i = .reserved8toF op →
    exec i s = .next { s with regs := { s.regs with
      cmderr := true, ecause := if s.regs.ecause = .none then .reservedOp else s.regs.ecause } }

/-- R66 line 1, R111 code 2, R113 item 1: with no open transaction ABSORB only records Error(2), whatever the length. -/
def Obligations.AbsorbWithoutTransactionIsRejected : Prop :=
  ∀ (s : State) (nb : BitVec 2), s.regs.phase ≠ .absorb →
    exec (.absorb nb) s = .next { s with regs := { s.regs with
      cmderr := true, ecause := if s.regs.ecause = .none then .absorbNotOpen else s.regs.ecause } }

/-- R66 line 2, R67: the length overflow, and what ABSORB and FINISH do after it. -/
def Obligations.AbsorbOverflowIsRejectedWhole : Prop :=
  ∀ (s : State) (nb : BitVec 2), s.regs.phase = .absorb → 2 ^ 64 ≤ s.regs.bitlen.toNat + 8 * (nb.toNat + 1) →
    ∃ t : State, exec (.absorb nb) s = .next t ∧
      t = { s with regs := { s.regs with
        lenerr := true, phase := .error,
        ecause := if s.regs.ecause = .none then .lenOverflow else s.regs.ecause } } ∧
      (∀ next : BitVec 2, exec (.absorb next) t = .next { t with regs := { t.regs with cmderr := true } }) ∧
      exec .finish t = .next { t with regs := { t.regs with cmderr := true } }

/-- R66: an accepted ABSORB whose bytes do not fill the block appends them, and changes BUF, BUFCNT and BITLEN alone. -/
def Obligations.AbsorbAppendsWithinBlock : Prop :=
  ∀ (s : State) (nb : BitVec 2) (n c : Nat), n = nb.toNat + 1 → c = s.regs.bufcnt.val →
    s.regs.phase = .absorb → s.regs.bitlen.toNat + 8 * n < 2 ^ 64 → c + n < 64 →
    ∃ t : State, exec (.absorb nb) s = .next t ∧
      t = { s with regs := { s.regs with buf := t.regs.buf, bufcnt := t.regs.bufcnt, bitlen := t.regs.bitlen } } ∧
      t.regs.bufcnt.val = c + n ∧ t.regs.bitlen.toNat = s.regs.bitlen.toNat + 8 * n ∧
      (∀ j : Fin 4, j.val < n → t.regs.buf[c + j.val]? = some (byteOf s.regs.dataIn j)) ∧
      ∀ p : Fin 64, p.val < c ∨ c + n ≤ p.val → t.regs.buf[p.val] = s.regs.buf[p.val]

/-- R66 lines 6 to 8, R68, R78: an accepted ABSORB whose bytes fill the block loads the completed block B before the bytes
left over go to the start of BUF. -/
def Obligations.AbsorbCompletesBlock : Prop :=
  ∀ (s : State) (nb : BitVec 2) (n c : Nat), n = nb.toNat + 1 → c = s.regs.bufcnt.val →
    s.regs.phase = .absorb → s.regs.bitlen.toNat + 8 * n < 2 ^ 64 → 64 ≤ c + n →
    (64 < c + n → 61 ≤ c) ∧
    ∃ (t : State) (B : Vector Byte 64), exec (.absorb nb) s = .next t ∧
      (∀ p : Fin 64, p.val < c → B[p.val] = s.regs.buf[p.val]) ∧
      (∀ j : Fin 4, c + j.val < 64 → B[c + j.val]? = some (byteOf s.regs.dataIn j)) ∧
      t = { s with regs := { s.regs with
        buf := t.regs.buf, bufcnt := t.regs.bufcnt, bitlen := t.regs.bitlen, w := t.regs.w, seq := .sched 0,
        v := ⟨s.regs.h[0], s.regs.h[1], s.regs.h[2], s.regs.h[3], s.regs.h[4], s.regs.h[5], s.regs.h[6], s.regs.h[7]⟩ } } ∧
      (∀ j : Fin 16, t.regs.w[j.val] = be32 B[4 * j.val] B[4 * j.val + 1] B[4 * j.val + 2] B[4 * j.val + 3]) ∧
      (∀ k : Fin 48, t.regs.w[k.val + 16] = s.regs.w[k.val + 16]) ∧
      t.regs.bufcnt.val = c + n - 64 ∧ t.regs.bitlen.toNat = s.regs.bitlen.toNat + 8 * n ∧
      (∀ j : Fin 4, j.val < n → 64 ≤ c + j.val → t.regs.buf[c + j.val - 64]? = some (byteOf s.regs.dataIn j)) ∧
      ∀ p : Fin 64, c + n - 64 ≤ p.val → t.regs.buf[p.val] = B[p.val]

/-- R69: FINISH, its error and its two ways of padding. -/
def Obligations.FinishPadsAndLoads : Prop :=
  (∀ s : State, s.regs.phase ≠ .absorb →
    exec .finish s = .next { s with regs := { s.regs with
      cmderr := true, ecause := if s.regs.ecause = .none then .finishNotOpen else s.regs.ecause } }) ∧
  ∀ (s : State) (r : Nat), s.regs.phase = .absorb → r = s.regs.bufcnt.val →
    ∃ t : State, exec .finish s = .next t ∧
      t = { s with regs := { s.regs with
        buf := t.regs.buf, w := t.regs.w, seq := .sched 0, bufcnt := 0, phase := .final, pad2 := decide (56 ≤ r),
        v := ⟨s.regs.h[0], s.regs.h[1], s.regs.h[2], s.regs.h[3], s.regs.h[4], s.regs.h[5], s.regs.h[6], s.regs.h[7]⟩ } } ∧
      (∀ p : Fin 64, p.val < r → t.regs.buf[p.val] = s.regs.buf[p.val]) ∧
      t.regs.buf[r]? = some 0x80#8 ∧
      (r ≤ 55 → (∀ p : Fin 64, r < p.val → p.val ≤ 55 → t.regs.buf[p.val] = 0) ∧
        ∀ j : Fin 8, t.regs.buf[56 + j.val] = be64 s.regs.bitlen j) ∧
      (56 ≤ r → ∀ p : Fin 64, r < p.val → t.regs.buf[p.val] = 0) ∧
      (∀ j : Fin 16, t.regs.w[j.val] =
        be32 t.regs.buf[4 * j.val] t.regs.buf[4 * j.val + 1] t.regs.buf[4 * j.val + 2] t.regs.buf[4 * j.val + 3]) ∧
      ∀ k : Fin 48, t.regs.w[k.val + 16] = s.regs.w[k.val + 16]

/-- R110: what raising an error records, and that only INIT and reset clear the record. -/
def Obligations.ErrorsKeepTheFirstCause : Prop :=
  (∀ (r : Regs) (c : Cause), c ≠ .none →
    r.raiseError c = { r with
      ecause := if r.ecause = .none then c else r.ecause
      lenerr := if c = .lenOverflow then true else r.lenerr
      cmderr := if c = .lenOverflow then r.cmderr else true }) ∧
  (∀ s t : State, step s = .next t → s.restarts = false →
    (s.regs.lenerr = true → t.regs.lenerr = true) ∧ (s.regs.cmderr = true → t.regs.cmderr = true) ∧
    (s.regs.ecause ≠ .none → t.regs.ecause = s.regs.ecause)) ∧
  ∀ s t : State, step s = .next t → s.restarts = true →
    t.regs.lenerr = false ∧ t.regs.cmderr = false ∧ t.regs.ecause = .none

/-! ### Micro-steps (40_padder.md to 43_serializer.md, 44_host_interface.md) -/

/-- R78: LOADBLK. -/
def Obligations.LoadBlockCopiesBlockAndHash : Prop :=
  ∀ r : Regs,
    (∀ j : Fin 16, r.loadBlock.w[j.val] =
      be32 r.buf[4 * j.val] r.buf[4 * j.val + 1] r.buf[4 * j.val + 2] r.buf[4 * j.val + 3]) ∧
    (∀ k : Fin 48, r.loadBlock.w[k.val + 16] = r.w[k.val + 16]) ∧
    r.loadBlock = { r with
      w := r.loadBlock.w, seq := .sched 0, v := ⟨r.h[0], r.h[1], r.h[2], r.h[3], r.h[4], r.h[5], r.h[6], r.h[7]⟩ }

/-- R79: SCHED(t), t = k + 16, writes W[t] and SEQ alone. -/
def Obligations.SchedWritesOneWord : Prop :=
  ∀ (r : Regs) (k : Fin 48), r.seq = .sched k →
    r.microStep.w[k.val + 16] =
      smallSigma1 r.w[k.val + 14] + r.w[k.val + 9] + smallSigma0 r.w[k.val + 1] + r.w[k.val] ∧
    (∀ j : Fin 64, j.val ≠ k.val + 16 → r.microStep.w[j.val] = r.w[j.val]) ∧
    r.microStep = { r with w := r.microStep.w, seq := r.microStep.seq } ∧
    (∀ later : Fin 48, later.val = k.val + 1 → r.microStep.seq = .sched later) ∧
    (k.val = 47 → r.microStep.seq = .round 0)

/-- R88: ROUND(i) shifts the working registers, all from their values before the step. -/
def Obligations.RoundShiftsWorkingRegisters : Prop :=
  ∀ (r : Regs) (i : Fin 64) (t1 t2 : Word), r.seq = .round i →
    t1 = r.v.h + bigSigma1 r.v.e + ch r.v.e r.v.f r.v.g + roundK[i.val] + r.w[i.val] →
    t2 = bigSigma0 r.v.a + maj r.v.a r.v.b r.v.c →
    r.microStep = { r with
      v := ⟨t1 + t2, r.v.a, r.v.b, r.v.c, r.v.d + t1, r.v.e, r.v.f, r.v.g⟩, seq := r.microStep.seq } ∧
    (∀ later : Fin 64, later.val = i.val + 1 → r.microStep.seq = .round later) ∧
    (i.val = 63 → r.microStep.seq = .ff)

/-- R89: FF adds V to H, word by word, and chooses what follows. -/
def Obligations.FeedForwardAddsWorkingRegisters : Prop :=
  ∀ r : Regs, r.seq = .ff →
    r.microStep = { r with
      h := #v[r.h[0] + r.v.a, r.h[1] + r.v.b, r.h[2] + r.v.c, r.h[3] + r.v.d,
              r.h[4] + r.v.e, r.h[5] + r.v.f, r.h[6] + r.v.g, r.h[7] + r.v.h],
      seq := r.microStep.seq } ∧
    (r.phase = .final → r.pad2 = true → r.microStep.seq = .pad2) ∧
    (r.phase = .final → r.pad2 = false → r.microStep.seq = .ser) ∧
    (r.phase ≠ .final → r.microStep.seq = .idle)

/-- R70: PAD2 builds and loads the second padding block. -/
def Obligations.PadTwoLoadsLengthBlock : Prop :=
  ∀ r : Regs, r.seq = .pad2 →
    (∀ p : Fin 64, p.val ≤ 55 → r.microStep.buf[p.val] = 0) ∧
    (∀ j : Fin 8, r.microStep.buf[56 + j.val] = be64 r.bitlen j) ∧
    (∀ j : Fin 16, r.microStep.w[j.val] = be32 r.microStep.buf[4 * j.val] r.microStep.buf[4 * j.val + 1]
      r.microStep.buf[4 * j.val + 2] r.microStep.buf[4 * j.val + 3]) ∧
    (∀ k : Fin 48, r.microStep.w[k.val + 16] = r.w[k.val + 16]) ∧
    r.microStep = { r with
      buf := r.microStep.buf, w := r.microStep.w, pad2 := false, seq := .sched 0,
      v := ⟨r.h[0], r.h[1], r.h[2], r.h[3], r.h[4], r.h[5], r.h[6], r.h[7]⟩ }

/-- R93, R94: SER writes the whole digest with DONE, what STATUS then reads, and that DIGESTk reads H[k]. -/
def Obligations.SerializerWritesWholeDigest : Prop :=
  ∀ r : Regs, r.seq = .ser →
    r.microStep = { r with d := r.microStep.d, phase := .done, seq := .idle } ∧
    (∀ (k : Fin 8) (j : Fin 4), r.microStep.d[4 * k.val + j.val] = byteOf r.h[k.val] j) ∧
    (∀ k : Fin 8, r.microStep.read (0x20 + 4 * k.val) = r.h[k.val]) ∧
    (r.Inv →
      (r.cmderr = false → r.microStep.status = 0x00000032#32) ∧
      (r.cmderr = true → r.microStep.status = 0x0000003A#32 ||| r.ecause.code.setWidth 32 <<< 16))

/-- R80: SEQ first reaches S_ROUND(0) 48 micro-steps after a LOADBLK, and the schedule is then the expanded block, whatever W
held before. -/
def Obligations.ScheduleIsExpandedBlock : Prop :=
  ∀ r : Regs,
    (∀ m < 48, (r.loadBlock.microSteps m).seq ≠ .round 0) ∧
    (r.loadBlock.microSteps 48).seq = .round 0 ∧ (r.loadBlock.microSteps 48).w = Algorithm.expand r.buf

/-- R90, R32: 113 micro-steps after a LOADBLK, H is the compressed state, and until then H is as before the block. -/
def Obligations.BlockIsCompressedIntoHash : Prop :=
  ∀ r : Regs,
    (r.loadBlock.microSteps 113).h = Algorithm.compress (Algorithm.expand r.buf) r.h ∧
    (∀ m < 113, (r.loadBlock.microSteps m).h = r.h) ∧
    r.loadBlock.microSteps 113 = { r with
      h := (r.loadBlock.microSteps 113).h, w := (r.loadBlock.microSteps 113).w,
      v := (r.loadBlock.microSteps 113).v, seq := (r.loadBlock.microSteps 113).seq }

/-- R107: the three paths from a LOADBLK: 48 SCHED, 64 ROUND and 1 FF, then nothing, SER, or PAD2, the same 113 and SER, with
their micro-step counts. -/
def Obligations.MicroStepCountsOfEachPath : Prop :=
  ∀ r : Regs,
    (∀ k : Fin 48, (r.loadBlock.microSteps k.val).seq = .sched k) ∧
    (∀ i : Fin 64, (r.loadBlock.microSteps (48 + i.val)).seq = .round i) ∧
    (r.loadBlock.microSteps 112).seq = .ff ∧
    (r.phase = .absorb → r.loadBlock.IdleFirstAfter 113) ∧
    (r.phase = .final → r.pad2 = false →
      (r.loadBlock.microSteps 113).seq = .ser ∧ r.loadBlock.IdleFirstAfter 114) ∧
    (r.phase = .final → r.pad2 = true →
      (r.loadBlock.microSteps 113).seq = .pad2 ∧
      (∀ k : Fin 48, (r.loadBlock.microSteps (114 + k.val)).seq = .sched k) ∧
      (∀ i : Fin 64, (r.loadBlock.microSteps (162 + i.val)).seq = .round i) ∧
      (r.loadBlock.microSteps 226).seq = .ff ∧ (r.loadBlock.microSteps 227).seq = .ser ∧
      r.loadBlock.IdleFirstAfter 228)

/-! ### The register window (10_state.md, 20_memory.md, 44_host_interface.md) -/

/-- R30 with the codes of R23 and R111: STATUS as a number; the reserved bits are 0. -/
def Obligations.StatusIsItsFields : Prop :=
  ∀ r : Regs,
    r.status.toNat = (if r.seq = .idle then 0 else 1) + (if r.phase = .done then 2 else 0) +
      (if r.lenerr then 4 else 0) + (if r.cmderr then 8 else 0) +
      2 ^ 4 * (match r.phase with | .idle => 0 | .absorb => 1 | .final => 2 | .done => 3 | .error => 4) +
      2 ^ 8 * r.bufcnt.val +
      2 ^ 16 * (match r.ecause with
        | .none => 0 | .reservedOp => 1 | .absorbNotOpen => 2 | .finishNotOpen => 3 | .lenOverflow => 4)

/-- R100: an accepted read returns what the map says and changes no register, also while BUSY. -/
def Obligations.ReadReturnsRegisterAndChangesNothing : Prop :=
  ∀ (s : State) (off : Nat) (rest : List Txn) (ts : List Turn),
    s.host = .read off .word :: rest → s.turns = .host :: ts → off % 4 = 0 → off < 0x80 →
    ∃ data : Word,
      step s = .next { s with host := rest, turns := ts, reply := some (.okayData data) } ∧
      (off = 0x00 → data = 0) ∧ (off = 0x04 → data = s.regs.status) ∧ (off = 0x08 → data = s.regs.dataIn) ∧
      (off = 0x10 → data.toNat = s.regs.bitlen.toNat % 2 ^ 32) ∧
      (off = 0x14 → data.toNat = s.regs.bitlen.toNat / 2 ^ 32) ∧
      (∀ k : Fin 8, off = 0x20 + 4 * k.val → data =
        be32 s.regs.d[4 * k.val] s.regs.d[4 * k.val + 1] s.regs.d[4 * k.val + 2] s.regs.d[4 * k.val + 3]) ∧
      (∀ k : Fin 8, off = 0x40 + 4 * k.val → data = s.regs.h[k.val]) ∧
      (off = 0x0C ∨ off = 0x18 ∨ off = 0x1C ∨ 0x60 ≤ off → data = 0)

/-- R101: an accepted write to CTRL runs the decoded command; DATA_IN takes the data, also while BUSY; any other register
ignores it. -/
def Obligations.WriteRunsCommandOrSetsDataIn : Prop :=
  ∀ (s : State) (off : Nat) (data : Word) (rest : List Txn) (ts : List Turn),
    s.host = .write off .word data :: rest → s.turns = .host :: ts → off % 4 = 0 → off < 0x80 →
    (off = 0x00 → s.regs.seq = .idle →
      step s = exec (decode data) { s with host := rest, turns := ts, reply := some .okay }) ∧
    (off = 0x08 → step s = .next { s with
      regs := { s.regs with dataIn := data }, host := rest, turns := ts, reply := some .okay }) ∧
    (off ≠ 0x00 → off ≠ 0x08 → step s = .next { s with host := rest, turns := ts, reply := some .okay })

/-- R44, R112: an access in the window that is not an aligned 32-bit one gets BUSERR, changes no register and is never held. -/
def Obligations.BadAccessGetsBusErrorOnly : Prop :=
  ∀ (s : State) (t : Txn) (rest : List Txn) (ts : List Turn),
    s.host = t :: rest → s.turns = .host :: ts → t.off < 0x80 → (t.size.bytes ≠ 4 ∨ t.off % 4 ≠ 0) →
    step s = .next { s with host := rest, turns := ts, reply := some .busErr }

/-- R40, R98 item 1: a transaction at 0x80 or above leaves the block as it was. That it leaves the host's list with the reply
`notDecoded` is the model's own (log 7). -/
def Obligations.OutsideWindowIsNotForThisBlock : Prop :=
  ∀ (s : State) (t : Txn) (rest : List Txn) (ts : List Turn),
    s.host = t :: rest → s.turns = .host :: ts → 0x80 ≤ t.off →
    step s = .next { s with host := rest, turns := ts, reply := some .notDecoded }

/-- R99: while BUSY a CTRL write stays pending, gets no response, and the sequencer goes on. That a turn of the host then is
the sequencer's is the model's own reading of R108 (log 3), and that no turn left is the sequencer's too is its choice
(log 2). -/
def Obligations.HeldWriteStaysPending : Prop :=
  ∀ (s : State) (word : Word) (rest : List Txn),
    s.host = .write 0x00 .word word :: rest → s.regs.seq ≠ .idle → s.turns.head? ≠ some .reset →
    step s = .next { s with regs := s.regs.microStep, turns := s.turns.tail, reply := none }

/-- R99, R134: with no reset, a held write is the next event after at most 228 micro-steps, during which nothing else happens.
That every step of a hold is a micro-step, on a turn of the host (log 3) and with no turn left (log 2, the model's fairness to
the sequencer), is the model's own. -/
def Obligations.HoldEndsWithin228MicroSteps : Prop :=
  ∀ (s : State) (word : Word) (rest : List Txn),
    s.host = .write 0x00 .word word :: rest → (∀ turn ∈ s.turns, turn ≠ .reset) →
    ∃ k ≤ 228,
      (∀ m ≤ k, ∃ u : State, run m s = .next u ∧ u.regs = s.regs.microSteps m ∧ u.host = s.host) ∧
      ∃ u : State, run k s = .next u ∧ u.regs.seq = .idle ∧ u.nextMove = .host (.write 0x00 .word word)

/-! ### Steps, reset and interleaving (44_host_interface.md, 70_reset_and_hazards.md) -/

/-- R98, R101, R102: a step that accepts a CTRL write is `exec` of the decoded command, on the state in which the write has
left the host's list, the turn is spent and the response is OKAY. That an idle block's step is the host's also on a turn of
the sequencer (log 3) and with no turn left (log 2) is the model's own. -/
def Obligations.StepRunsTheDecodedCommand : Prop :=
  ∀ (s : State) (word : Word) (rest : List Txn),
    s.host = .write 0x00 .word word :: rest → s.regs.seq = .idle → s.turns.head? ≠ some .reset →
    step s = exec (decode word) { s with host := rest, turns := s.turns.tail, reply := some .okay }

/-- The command word placed by `withFetchWord` is what the very next step runs (log 15: the placing is the model's own). -/
def Obligations.PlacedCommandRunsNext : Prop :=
  ∀ (s : State) (w : Nat), w < 2 ^ 32 →
    step (s.withFetchWord 32 w) =
      exec (decode (BitVec.ofNat 32 w)) { s with regs := { s.regs with seq := .idle }, reply := some .okay }

/-- R106: a step in which the sequencer moves is one micro-step and nothing else; R108, R124: with nothing enabled, no state of
the block changes. That the model then still makes a step, which spends the turn, is its own (log 3; R124 speaks of no step). -/
def Obligations.SequencerStepIsOneMicroStep : Prop :=
  (∀ s : State, s.nextMove = .sequencer →
    s.regs.seq ≠ .idle ∧
    step s = .next { s with regs := s.regs.microStep, turns := s.turns.tail, reply := none }) ∧
  ∀ s : State, s.regs.seq = .idle → s.host = [] → s.turns.head? ≠ some .reset →
    step s = .next { s with turns := s.turns.tail, reply := none }

/-- R108: every enabled event can be the next step, a step takes an enabled event or, with none enabled, nothing, and no step
ever stops. The model's own in it: the turns, which hold the free choice (log 1, log 3); that a transaction at 0x80 or above
counts as an event of the host, where R108 has only those for this block (log 7); and that no step stops in any state, where
R16 and I2 have a model fault for reading an unset cell, which the model does not take (log 17). -/
def Obligations.StepsAreTheEnabledEvents : Prop :=
  (∀ (s : State) (t : Txn), s.hostEvent = some t → ({ s with turns := [.host] } : State).nextMove = .host t) ∧
  (∀ s : State, s.regs.seq ≠ .idle → ({ s with turns := [.sequencer] } : State).nextMove = .sequencer) ∧
  (∀ s : State, ({ s with turns := [.reset] } : State).nextMove = .reset) ∧
  (∀ (s : State) (t : Txn), s.nextMove = .host t →
    s.host.head? = some t ∧ (t.command ≠ none → s.regs.seq = .idle)) ∧
  (∀ s : State, s.nextMove = .sequencer → s.regs.seq ≠ .idle) ∧
  (∀ s : State, s.nextMove = .reset → s.turns.head? = some .reset) ∧
  (∀ s : State, s.nextMove = .quiet → s.regs.seq = .idle ∧ s.host = []) ∧
  ∀ s : State, ∃ t : State, step s = .next t

/-- R125: Reset sets every register that R125 gives a value, whatever the state was; STATUS reads 0; and only Reset leads to
P_IDLE. That the host's transactions stay is read from R126 (log 8), and that there is no response after a reset is the
model's own (log 6). (What BUF, W and V then hold is the model's choice, log 4, and not stated.) -/
def Obligations.ResetSetsEveryRegister : Prop :=
  (∀ (s : State) (ts : List Turn), s.turns = .reset :: ts →
    ∃ t : State, step s = .next t ∧ t.host = s.host ∧ t.turns = ts ∧ t.reply = none ∧
      t.regs.seq = .idle ∧ t.regs.phase = .idle ∧ t.regs.pad2 = false ∧ t.regs.bufcnt = 0 ∧ t.regs.bitlen = 0 ∧
      t.regs.lenerr = false ∧ t.regs.cmderr = false ∧ t.regs.ecause = .none ∧ t.regs.dataIn = 0 ∧
      (∀ k : Fin 8, t.regs.h[k.val] = 0) ∧ (∀ p : Fin 32, t.regs.d[p.val] = 0) ∧ t.regs.status = 0) ∧
  ∀ s t : State, step s = .next t → t.regs.phase = .idle → s.regs.phase = .idle ∨ s.nextMove = .reset

/-- R126: a reset while BUSY abandons the block; the held write is not performed by it, and is the next step's command. -/
def Obligations.HeldWriteIsFirstCommandAfterReset : Prop :=
  ∀ (s : State) (word : Word) (rest : List Txn) (ts : List Turn),
    s.regs.seq ≠ .idle → s.host = .write 0x00 .word word :: rest → s.turns = .reset :: ts →
    ts.head? ≠ some .reset →
    ∃ t : State, step s = .next t ∧ t.host = s.host ∧ t.regs.seq = .idle ∧ t.regs.phase = .idle ∧
      (∀ k : Fin 8, t.regs.read (0x20 + 4 * k.val) = 0) ∧
      step t = exec (decode word) { t with host := rest, turns := ts.tail, reply := some .okay } ∧
      ∀ nb : BitVec 2, decode word = .absorb nb → ∃ u : State, step t = .next u ∧ u.regs.status = 0x00020008#32

/-! ### Whole-machine rules (10_state.md, 42_compressor.md) -/

/-- R15 to R19, R21 to R27, R33, R102, R106, R110: which steps, resets apart, can change each register. In particular SEQ
leaves S_IDLE only by the LOADBLK of an accepted ABSORB or FINISH. -/
def Obligations.EachRegisterHasItsWriters : Prop :=
  ∀ s t : State, step s = .next t → s.nextMove ≠ .reset →
    (t.regs.h ≠ s.regs.h → s.nextCommand = some .init ∨ (s.nextMove = .sequencer ∧ s.regs.seq = .ff)) ∧
    (t.regs.v ≠ s.regs.v → s.loads ≠ [] ∨ (s.nextMove = .sequencer ∧ ∃ i : Fin 64, s.regs.seq = .round i)) ∧
    (t.regs.w ≠ s.regs.w → s.loads ≠ [] ∨ (s.nextMove = .sequencer ∧ ∃ k : Fin 48, s.regs.seq = .sched k)) ∧
    (t.regs.buf ≠ s.regs.buf →
      s.absorbs ≠ [] ∨ s.nextCommand = some .finish ∨ (s.nextMove = .sequencer ∧ s.regs.seq = .pad2)) ∧
    (t.regs.d ≠ s.regs.d → s.nextCommand = some .init ∨ (s.nextMove = .sequencer ∧ s.regs.seq = .ser)) ∧
    (t.regs.bitlen ≠ s.regs.bitlen → s.nextCommand = some .init ∨ s.absorbs ≠ []) ∧
    (t.regs.dataIn ≠ s.regs.dataIn → ∃ data : Word, s.nextMove = .host (.write 0x08 .word data)) ∧
    (t.regs.bufcnt ≠ s.regs.bufcnt →
      s.nextCommand = some .init ∨ s.absorbs ≠ [] ∨ s.nextCommand = some .finish) ∧
    (t.regs.pad2 ≠ s.regs.pad2 →
      s.nextCommand = some .init ∨ s.nextCommand = some .finish ∨ (s.nextMove = .sequencer ∧ s.regs.seq = .pad2)) ∧
    (t.regs.seq ≠ s.regs.seq → s.loads ≠ [] ∨ (s.nextMove = .sequencer ∧ s.regs.seq ≠ .idle)) ∧
    (s.regs.seq = .idle → t.regs.seq ≠ .idle →
      s.loads ≠ [] ∧ t.regs.seq = .sched 0 ∧
      ((∃ nb : BitVec 2, s.nextCommand = some (.absorb nb)) ∨ s.nextCommand = some .finish)) ∧
    (t.regs.phase ≠ s.regs.phase →
      s.nextCommand = some .init ∨ s.nextCommand = some .finish ∨
      (∃ nb : BitVec 2, s.nextCommand = some (.absorb nb)) ∨ (s.nextMove = .sequencer ∧ s.regs.seq = .ser)) ∧
    (t.regs.lenerr ≠ s.regs.lenerr →
      s.nextCommand = some .init ∨ ∃ nb : BitVec 2, s.nextCommand = some (.absorb nb)) ∧
    (t.regs.cmderr ≠ s.regs.cmderr ∨ t.regs.ecause ≠ s.regs.ecause →
      ∃ i : Instr, s.nextCommand = some i ∧ i ≠ .nop)

/-- R23, R66, R69, R93, R104: the only events that change the phase, and to what. -/
def Obligations.PhaseChangesOnlyByItsEvents : Prop :=
  ∀ s t : State, step s = .next t → t.regs.phase ≠ s.regs.phase →
    (t.regs.phase = .idle ∧ s.nextMove = .reset) ∨
    (t.regs.phase = .absorb ∧ s.nextCommand = some .init) ∨
    (t.regs.phase = .final ∧ s.regs.phase = .absorb ∧ s.nextCommand = some .finish) ∨
    (t.regs.phase = .done ∧ s.nextMove = .sequencer ∧ s.regs.seq = .ser) ∨
    (t.regs.phase = .error ∧ s.regs.phase = .absorb ∧
      ∃ nb : BitVec 2, s.nextCommand = some (.absorb nb) ∧ 2 ^ 64 ≤ s.regs.bitlen.toNat + 8 * (nb.toNat + 1))

/-- R91: a block is loaded only with no block in flight, and its micro-steps then start. -/
def Obligations.BlocksAreLoadedOneAtATime : Prop :=
  ∀ s t : State, step s = .next t → s.loads ≠ [] →
    s.loads.length = 1 ∧ (s.regs.seq = .idle ∨ (s.nextMove = .sequencer ∧ s.regs.seq = .pad2)) ∧
    t.regs.seq = .sched 0 ∧
    ∀ block ∈ s.loads, ∀ j : Fin 16, t.regs.w[j.val] =
      be32 block[4 * j.val] block[4 * j.val + 1] block[4 * j.val + 2] block[4 * j.val + 3]

/-- R36, R38, R21: the invariant holds right after reset. -/
def Obligations.InvariantHoldsAtReset : Prop := State.reset.regs.Inv

/-- R36, R38, R21: every step, of whatever agent, keeps the invariant. -/
def Obligations.EveryStepKeepsTheInvariant : Prop :=
  ∀ s t : State, s.regs.Inv → step s = .next t → t.regs.Inv

/-- R36, R38, R131: what the invariant says to a host that reads the window: DIGEST is H in P_DONE and 0 elsewhere, BUSY only
with P_ABSORB or P_FINAL, and BITLEN at most 2^64 − 8. -/
def Obligations.InvariantAsTheHostReadsIt : Prop :=
  ∀ r : Regs, r.Inv →
    (∀ k : Fin 8, r.read (0x20 + 4 * k.val) = if r.phase = .done then r.read (0x40 + 4 * k.val) else 0) ∧
    (r.status.getLsbD 0 = true → r.status.extractLsb' 4 3 = 1#3 ∨ r.status.extractLsb' 4 3 = 2#3) ∧
    r.bitlen.toNat ≤ 2 ^ 64 - 8

/-- R37, R125: no step reads an unset or stale cell of BUF, W or V. Two machines that differ at most in such cells take the
same steps, give the same responses, and again differ at most in such cells. -/
def Obligations.UnsetCellsAreNeverRead : Prop :=
  ∀ s t s' : State, s.SameLive t → step s = .next s' → ∃ t' : State, step t = .next t' ∧ s'.SameLive t'

/-- R72: in a transaction that reaches P_DONE, the blocks loaded are the blocks of the padded message, NB(L) of them, for
every interleaving and every way of splitting the message. -/
def Obligations.LoadedBlocksArePaddedMessage : Prop :=
  ∀ (s t u : State) (k : Nat),
    s.regs.seq = .idle → exec .init s = .next t → sameTransaction k t = true → run k t = .next u →
    u.regs.phase = .done →
    blocksLoaded k t = Algorithm.blocks64 (Algorithm.pad (messageOf k t)) ∧
    (blocksLoaded k t).length = Algorithm.blockCount (messageOf k t).length

/-- R95, the whole-block theorem: a transaction with message m that reaches P_DONE leaves D = sha256(m), for every
interleaving and every way of splitting the message. -/
def Obligations.DigestIsSha256OfMessage : Prop :=
  ∀ (s t u : State) (k : Nat),
    s.regs.seq = .idle → exec .init s = .next t → sameTransaction k t = true → run k t = .next u →
    u.regs.phase = .done →
    u.regs.d.toList = Algorithm.sha256 (messageOf k t) ∧ (messageOf k t).length ≤ 2 ^ 61 - 1

/-- I12 of 93_implementation_defined.md, R49, R99: what the block holds once the host's transactions are completed and it is
idle does not depend on the interleaving of the host with the sequencer. -/
def Obligations.InterleavingDoesNotMatter : Prop :=
  ∀ (s u v : State) (ts us : List Turn) (k m : Nat),
    (∀ turn ∈ ts, turn ≠ .reset) → (∀ turn ∈ us, turn ≠ .reset) →
    run k { s with turns := ts } = .next u → run m { s with turns := us } = .next v →
    u.host = [] → v.host = [] → u.regs.seq = .idle → v.regs.seq = .idle →
    u.regs = v.regs
end

