-- ==== Sys2Proof/Config.lean ====
section
/-! DEFINITION. The two open parameters of the spec (00_scope.md R7): `BASE` and `CYCLES_PER_STEP`. Neither has a
value here, and no step of the model reads one. -/

namespace Sys2Proof

/-- `BASE`, the platform address of offset 0x00 (R7, R47, 92_eei_decisions.md D4). Open: no value. -/
opaque Config.base : Nat

/-- How far `CYCLES_PER_STEP` is above its least value 1 (R7, R134, D23). Open: no value. -/
opaque Config.extraCyclesPerStep : Nat

/-- `CYCLES_PER_STEP`, clock cycles per micro-step, an integer ≥ 1 (R7). Informational (R134). -/
def Config.cyclesPerStep : Nat := Config.extraCyclesPerStep + 1

/-- The platform address of a window offset (R7, R29). -/
def Config.platformAddress (off : Nat) : Nat := Config.base + off

/-- The offset the block sees for a platform address; `none` below the window (R7, R47). -/
def Config.offsetOf (addr : Nat) : Option Nat :=
  if Config.base ≤ addr then some (addr - Config.base) else none

/-- An informational cycle figure from the two of R134: `CYCLES_PER_STEP` for each micro-step, one for each accepted
transaction. R134 gives each alone and no total. DESIGN CHOICE: the model adds the two, where a transaction's cycle may overlap
the sequencer's (log 19). Nothing reads it. -/
def Config.clockCycles (microSteps transactions : Nat) : Nat :=
  microSteps * Config.cyclesPerStep + transactions

end Sys2Proof
end

