-- ==== Sys2Proof/Laws/State.lean ====
section
/-! SUPPORT. What each named update of the state leaves in each field, true by unfolding the update once. -/

namespace Sys2Proof.Machine

section MachineUpdates
variable (s : State) (f : Regs → Regs) (rep : Reply)

@[simp] theorem State.onRegs_regs : (s.onRegs f).regs = f s.regs := rfl
@[simp] theorem State.onRegs_host : (s.onRegs f).host = s.host := rfl
@[simp] theorem State.onRegs_turns : (s.onRegs f).turns = s.turns := rfl
@[simp] theorem State.onRegs_reply : (s.onRegs f).reply = s.reply := rfl
@[simp] theorem State.answer_regs : (s.answer rep).regs = s.regs := rfl
@[simp] theorem State.answer_host : (s.answer rep).host = s.host := rfl
@[simp] theorem State.answer_turns : (s.answer rep).turns = s.turns := rfl
@[simp] theorem State.answer_reply : (s.answer rep).reply = some rep := rfl
@[simp] theorem State.tick_regs : s.tick.regs = s.regs := rfl
@[simp] theorem State.tick_host : s.tick.host = s.host := rfl
@[simp] theorem State.tick_turns : s.tick.turns = s.turns.tail := rfl
@[simp] theorem State.tick_reply : s.tick.reply = none := rfl
@[simp] theorem State.dropTxn_regs : s.dropTxn.regs = s.regs := rfl
@[simp] theorem State.dropTxn_host : s.dropTxn.host = s.host.tail := rfl
@[simp] theorem State.dropTxn_turns : s.dropTxn.turns = s.turns := rfl
@[simp] theorem State.dropTxn_reply : s.dropTxn.reply = s.reply := rfl

end MachineUpdates

section ErrorRecord
variable (r : Regs) (c : Cause)

@[simp] theorem Regs.raiseError_h : (r.raiseError c).h = r.h := rfl
@[simp] theorem Regs.raiseError_v : (r.raiseError c).v = r.v := rfl
@[simp] theorem Regs.raiseError_w : (r.raiseError c).w = r.w := rfl
@[simp] theorem Regs.raiseError_buf : (r.raiseError c).buf = r.buf := rfl
@[simp] theorem Regs.raiseError_d : (r.raiseError c).d = r.d := rfl
@[simp] theorem Regs.raiseError_bitlen : (r.raiseError c).bitlen = r.bitlen := rfl
@[simp] theorem Regs.raiseError_bufcnt : (r.raiseError c).bufcnt = r.bufcnt := rfl
@[simp] theorem Regs.raiseError_phase : (r.raiseError c).phase = r.phase := rfl
@[simp] theorem Regs.raiseError_seq : (r.raiseError c).seq = r.seq := rfl
@[simp] theorem Regs.raiseError_pad2 : (r.raiseError c).pad2 = r.pad2 := rfl
@[simp] theorem Regs.raiseError_dataIn : (r.raiseError c).dataIn = r.dataIn := rfl
@[simp] theorem Regs.raiseError_lenerr : (r.raiseError c).lenerr = (r.lenerr || decide (c = .lenOverflow)) := rfl
@[simp] theorem Regs.raiseError_cmderr : (r.raiseError c).cmderr = (r.cmderr || decide (c ≠ .lenOverflow)) := rfl
@[simp] theorem Regs.raiseError_ecause :
    (r.raiseError c).ecause = if r.ecause = .none then c else r.ecause := rfl

end ErrorRecord

section LoadedBlock
variable (r : Regs)

@[simp] theorem Regs.loadBlock_h : r.loadBlock.h = r.h := rfl
@[simp] theorem Regs.loadBlock_v : r.loadBlock.v = WorkRegs.ofHash r.h := rfl
@[simp] theorem Regs.loadBlock_buf : r.loadBlock.buf = r.buf := rfl
@[simp] theorem Regs.loadBlock_d : r.loadBlock.d = r.d := rfl
@[simp] theorem Regs.loadBlock_bitlen : r.loadBlock.bitlen = r.bitlen := rfl
@[simp] theorem Regs.loadBlock_bufcnt : r.loadBlock.bufcnt = r.bufcnt := rfl
@[simp] theorem Regs.loadBlock_phase : r.loadBlock.phase = r.phase := rfl
@[simp] theorem Regs.loadBlock_seq : r.loadBlock.seq = .sched 0 := rfl
@[simp] theorem Regs.loadBlock_pad2 : r.loadBlock.pad2 = r.pad2 := rfl
@[simp] theorem Regs.loadBlock_lenerr : r.loadBlock.lenerr = r.lenerr := rfl
@[simp] theorem Regs.loadBlock_cmderr : r.loadBlock.cmderr = r.cmderr := rfl
@[simp] theorem Regs.loadBlock_ecause : r.loadBlock.ecause = r.ecause := rfl
@[simp] theorem Regs.loadBlock_dataIn : r.loadBlock.dataIn = r.dataIn := rfl

end LoadedBlock

section NewTransaction
variable (r : Regs)

@[simp] theorem Regs.init_h : r.init.h = initialHash := rfl
@[simp] theorem Regs.init_v : r.init.v = r.v := rfl
@[simp] theorem Regs.init_w : r.init.w = r.w := rfl
@[simp] theorem Regs.init_buf : r.init.buf = r.buf := rfl
@[simp] theorem Regs.init_d : r.init.d = Vector.replicate 32 0 := rfl
@[simp] theorem Regs.init_bitlen : r.init.bitlen = 0 := rfl
@[simp] theorem Regs.init_bufcnt : r.init.bufcnt = 0 := rfl
@[simp] theorem Regs.init_phase : r.init.phase = .absorb := rfl
@[simp] theorem Regs.init_seq : r.init.seq = r.seq := rfl
@[simp] theorem Regs.init_pad2 : r.init.pad2 = false := rfl
@[simp] theorem Regs.init_lenerr : r.init.lenerr = false := rfl
@[simp] theorem Regs.init_cmderr : r.init.cmderr = false := rfl
@[simp] theorem Regs.init_ecause : r.init.ecause = .none := rfl
@[simp] theorem Regs.init_dataIn : r.init.dataIn = r.dataIn := rfl

end NewTransaction

end Sys2Proof.Machine
end

