-- ==== Sys2Proof/Laws/Window.lean ====
section
/-! SUPPORT. What a transaction is to the block: a command, a plain access, or no access of this block. -/

namespace Sys2Proof.Machine

/-- A transaction is a command exactly when it is a 32-bit write at offset 0 (R98, R101). -/
theorem Txn.command_eq_some {t : Txn} {word : Word} : t.command = some word ↔ t = .write 0x00 .word word := by
  cases t with
  | read off size => simp [Txn.command]
  | write off size data =>
    have ctrl : regAt off = .ctrl ↔ off = 0 := by
      unfold regAt
      repeat' split
      all_goals simp_all
    cases size <;> simp [Txn.command, Txn.accessOK, Txn.size, Txn.off, AccessSize.bytes, ctrl]
    intro _ zero
    omega

@[simp] theorem Txn.command_write_ctrl (word : Word) : (Txn.write 0x00 .word word).command = some word :=
  Txn.command_eq_some.2 rfl

@[simp] theorem Txn.command_read (off : Nat) (size : AccessSize) : (Txn.read off size).command = none := rfl

/-- A bad access is no command, so it is never held (R44, R99). -/
theorem Txn.command_of_not_accessOK {t : Txn} (bad : t.accessOK = false) : t.command = none := by
  cases t with
  | read off size => rfl
  | write off size data => simp [Txn.command, bad]

theorem Regs.holds_iff {r : Regs} {t : Txn} : r.holds t = true ↔ t.command ≠ none ∧ r.seq ≠ .idle := by
  cases command : t.command <;> simp [Regs.holds, Regs.busy, command]

/-- Only DATA_IN can be changed by an access that is no command (R101). -/
theorem Regs.writeReg_frame (r : Regs) (data : Word) (reg : Reg) :
    r.writeReg data reg = r ∨ (reg = .dataIn ∧ r.writeReg data reg = { r with dataIn := data }) := by
  cases reg <;> simp [Regs.writeReg]

/-- An access that is no command leaves the host's list and the turns alone and gives a response. -/
theorem State.access_frame (s : State) (t : Txn) :
    (s.access t).host = s.host ∧ (s.access t).turns = s.turns ∧ (s.access t).reply ≠ none := by
  unfold State.access
  repeat' split
  all_goals simp

/-- The only access that changes the block is an accepted write of DATA_IN (R46, R101). -/
theorem State.access_regs (s : State) (t : Txn) :
    (s.access t).regs = s.regs ∨
    ∃ data, t = .write 0x08 .word data ∧ (s.access t).regs = { s.regs with dataIn := data } := by
  have dataIn : ∀ off, regAt off = .dataIn → off = 0x08 := by
    intro off
    unfold regAt
    repeat' split
    all_goals simp_all
  unfold State.access
  by_cases here : t.forThisBlock = true
  · by_cases good : t.accessOK = true
    · cases t with
      | read off size => simp [here, good]
      | write off size data =>
        simp only [here, good, Bool.not_true, Bool.false_eq_true, if_false, State.onRegs_regs, State.answer_regs]
        rcases s.regs.writeReg_frame data (regAt off) with same | ⟨reg, written⟩
        · exact .inl same
        · refine .inr ⟨data, ?_, written⟩
          have size4 : size = .word := by
            cases size <;> simp_all [Txn.accessOK, Txn.size, AccessSize.bytes]
          rw [dataIn off reg, size4]
    · simp [here, good]
  · simp [here]

end Sys2Proof.Machine
end

