-- ==== Sys2Proof/Laws/Event.lean ====
section
/-! SUPPORT. What a command and a step can do, said once; provers cite these and need not unfold `exec` or `step`. -/

namespace Sys2Proof.Machine

/-- The change of the block that a command makes. -/
def Regs.execute (r : Regs) : Instr → Regs
  | .nop => r
  | .init => r.init
  | .absorb nb => r.absorb (absorbCount nb)
  | .finish => r.finish
  | .reserved4to7 _ => r.raiseError .reservedOp
  | .reserved8toF _ => r.raiseError .reservedOp

/-- Every command answers a next state and changes the block alone (R102). -/
theorem exec_eq (i : Instr) (s : State) : exec i s = .next (s.onRegs fun r => r.execute i) := by
  cases i <;> rfl

theorem State.hostEvent_eq_some {s : State} {t : Txn} :
    s.hostEvent = some t ↔ s.host.head? = some t ∧ (t.command ≠ none → s.regs.seq = .idle) := by
  unfold State.hostEvent
  cases s.host with
  | nil => simp
  | cons x rest =>
    by_cases held : s.regs.holds x = true
    · have := Regs.holds_iff.1 held
      simp only [held, if_true, List.head?_cons, Option.some.injEq]
      constructor
      · simp
      · rintro ⟨rfl, idle⟩
        exact absurd (idle this.1) this.2
    · have free : ¬ (x.command ≠ none ∧ s.regs.seq ≠ .idle) := fun h => held (Regs.holds_iff.2 h)
      simp only [held, List.head?_cons, Option.some.injEq]
      constructor
      · rintro ⟨rfl⟩
        exact ⟨rfl, fun c => by_contra fun b => free ⟨c, b⟩⟩
      · rintro ⟨rfl, -⟩
        rfl

theorem Regs.busy_iff {r : Regs} : r.busy = true ↔ r.seq ≠ .idle := by simp [Regs.busy]

/-- Each move, with the condition under which it is chosen. -/
theorem State.nextMove_cases (s : State) :
    (∃ t, s.nextMove = .host t ∧ s.hostEvent = some t) ∨
    (s.nextMove = .sequencer ∧ s.regs.seq ≠ .idle) ∨
    (s.nextMove = .reset ∧ s.turns.head? = some .reset) ∨
    (s.nextMove = .quiet ∧ s.regs.seq = .idle ∧ s.hostEvent = none) := by
  have host : ∀ m, m = s.hostFirst → (∃ t, m = .host t ∧ s.hostEvent = some t) ∨
      (m = .sequencer ∧ s.regs.seq ≠ .idle) ∨ (m = .quiet ∧ s.regs.seq = .idle ∧ s.hostEvent = none) := by
    rintro m rfl
    unfold State.hostFirst
    cases event : s.hostEvent with
    | some t => simp
    | none => by_cases busy : s.regs.busy = true <;> simp [busy] <;> simpa [Regs.busy] using busy
  have sequencer : ∀ m, m = s.sequencerFirst → (∃ t, m = .host t ∧ s.hostEvent = some t) ∨
      (m = .sequencer ∧ s.regs.seq ≠ .idle) ∨ (m = .quiet ∧ s.regs.seq = .idle ∧ s.hostEvent = none) := by
    rintro m rfl
    unfold State.sequencerFirst
    by_cases busy : s.regs.busy = true
    · exact .inr (.inl ⟨by simp [busy], Regs.busy_iff.1 busy⟩)
    · have idle : s.regs.seq = .idle := by simpa [Regs.busy] using busy
      cases event : s.hostEvent <;> simp [busy, idle]
  unfold State.nextMove
  split
  · exact (sequencer _ rfl).elim .inl fun h => .inr (h.elim .inl fun q => .inr (.inr q))
  · exact (sequencer _ rfl).elim .inl fun h => .inr (h.elim .inl fun q => .inr (.inr q))
  · exact (host _ rfl).elim .inl fun h => .inr (h.elim .inl fun q => .inr (.inr q))
  · next rest turns => simp [turns]

/-- Everything one step can do: a command, a plain access, a micro-step, a reset, or nothing. A step never stops. -/
theorem step_cases (s : State) :
    (∃ t word, s.nextMove = .host t ∧ t.command = some word ∧ s.host.head? = some t ∧ s.regs.seq = .idle ∧
      step s = .next (((s.tick.dropTxn).answer .okay).onRegs fun r => r.execute (decode word))) ∨
    (∃ t, s.nextMove = .host t ∧ t.command = none ∧ s.host.head? = some t ∧
      step s = .next (s.tick.dropTxn.access t)) ∨
    (s.nextMove = .sequencer ∧ s.regs.seq ≠ .idle ∧ step s = .next (s.tick.onRegs Regs.microStep)) ∨
    (s.nextMove = .reset ∧ step s = .next (s.tick.onRegs fun _ => Regs.reset)) ∨
    (s.nextMove = .quiet ∧ s.regs.seq = .idle ∧ step s = .next s.tick) := by
  rcases s.nextMove_cases with ⟨t, move, event⟩ | ⟨move, busy⟩ | ⟨move, -⟩ | ⟨move, idle, -⟩
  · have ⟨head, free⟩ := State.hostEvent_eq_some.1 event
    cases command : t.command with
    | none => exact .inr (.inl ⟨t, move, command, head, by simp [step, move, State.make, State.perform, command]⟩)
    | some word =>
      exact .inl ⟨t, word, move, command, head, free (by simp [command]),
        by simp [step, move, State.make, State.perform, command, exec_eq]⟩
  · exact .inr (.inr (.inl ⟨move, busy, by simp [step, move, State.make]⟩))
  · exact .inr (.inr (.inr (.inl ⟨move, by simp [step, move, State.make, State.resetEvent]⟩)))
  · exact .inr (.inr (.inr (.inr ⟨move, idle, by simp [step, move, State.make]⟩)))

end Sys2Proof.Machine
end

