-- ==== Sys2Proof/Laws/Padder.lean ====
section
/-! SUPPORT. The padder's operations, said once: the lanes, one appended byte, the three outcomes of ABSORB and the two of
FINISH, and the blocks FINISH and PAD2 build. -/

namespace Sys2Proof.Machine

theorem absorbCount_bounds (nb : BitVec 2) : 1 ≤ absorbCount nb ∧ absorbCount nb ≤ 4 := by
  have := nb.isLt
  unfold absorbCount
  omega

theorem lanes_length (dataIn : Word) {n : Nat} (le : n ≤ 4) : (lanes dataIn n).length = n := by
  simp [lanes, le]

theorem lanes_getElem? (dataIn : Word) {n : Nat} (j : Fin 4) (lt : j.val < n) :
    (lanes dataIn n)[j.val]? = some (byteOf dataIn j) := by
  simp [lanes, lt]

section Append
variable (r : Regs) (b : Byte)

/-- A byte that does not fill the block. -/
theorem Regs.appendByte_of_lt (lt : r.bufcnt ≠ 63) :
    r.appendByte b = { r with buf := r.buf.set r.bufcnt.val b, bufcnt := r.bufcnt + 1 } := by
  simp [Regs.appendByte, lt]

/-- The 64th byte: the block with this byte at 63 is loaded, and BUFCNT is 0. -/
theorem Regs.appendByte_of_last (last : r.bufcnt = 63) :
    r.appendByte b = { ({ r with buf := r.buf.set r.bufcnt.val b } : Regs).loadBlock with bufcnt := 0 } := by
  simp [Regs.appendByte, last]

theorem Regs.appendByte_buf : (r.appendByte b).buf = r.buf.set r.bufcnt.val b := by
  by_cases last : r.bufcnt = 63 <;> simp [Regs.appendByte, last]

theorem Regs.appendByte_bufcnt : (r.appendByte b).bufcnt.val = (r.bufcnt.val + 1) % 64 := by
  by_cases last : r.bufcnt = 63
  · simp [Regs.appendByte, last]
  · simp [Regs.appendByte, last, Fin.val_add]

/-- Appending a byte touches BUF, BUFCNT and what LOADBLK writes, and nothing else. -/
theorem Regs.appendByte_frame :
    (r.appendByte b).h = r.h ∧ (r.appendByte b).d = r.d ∧ (r.appendByte b).bitlen = r.bitlen ∧
    (r.appendByte b).phase = r.phase ∧ (r.appendByte b).pad2 = r.pad2 ∧ (r.appendByte b).lenerr = r.lenerr ∧
    (r.appendByte b).cmderr = r.cmderr ∧ (r.appendByte b).ecause = r.ecause ∧ (r.appendByte b).dataIn = r.dataIn := by
  by_cases last : r.bufcnt = 63 <;> simp [Regs.appendByte, last]

end Append

/-- The same for a list of bytes. -/
theorem Regs.appendBytes_frame (bytes : List Byte) : ∀ r : Regs,
    (bytes.foldl Regs.appendByte r).h = r.h ∧ (bytes.foldl Regs.appendByte r).d = r.d ∧
    (bytes.foldl Regs.appendByte r).bitlen = r.bitlen ∧ (bytes.foldl Regs.appendByte r).phase = r.phase ∧
    (bytes.foldl Regs.appendByte r).pad2 = r.pad2 ∧ (bytes.foldl Regs.appendByte r).lenerr = r.lenerr ∧
    (bytes.foldl Regs.appendByte r).cmderr = r.cmderr ∧ (bytes.foldl Regs.appendByte r).ecause = r.ecause ∧
    (bytes.foldl Regs.appendByte r).dataIn = r.dataIn ∧
    (bytes.foldl Regs.appendByte r).bufcnt.val = (r.bufcnt.val + bytes.length) % 64 := by
  induction bytes with
  | nil => intro r; simp; omega
  | cons b bytes ih =>
    intro r
    have one := r.appendByte_frame b
    have count := r.appendByte_bufcnt b
    have rest := ih (r.appendByte b)
    simp only [List.foldl_cons, List.length_cons]
    refine ⟨rest.1.trans one.1, rest.2.1.trans one.2.1, rest.2.2.1.trans one.2.2.1, rest.2.2.2.1.trans one.2.2.2.1,
      rest.2.2.2.2.1.trans one.2.2.2.2.1, rest.2.2.2.2.2.1.trans one.2.2.2.2.2.1,
      rest.2.2.2.2.2.2.1.trans one.2.2.2.2.2.2.1, rest.2.2.2.2.2.2.2.1.trans one.2.2.2.2.2.2.2.1,
      rest.2.2.2.2.2.2.2.2.1.trans one.2.2.2.2.2.2.2.2, ?_⟩
    rw [rest.2.2.2.2.2.2.2.2.2, count]
    omega

section AbsorbOutcomes
variable (r : Regs) (n : Nat)

theorem Regs.wouldOverflow_iff : r.wouldOverflow n = true ↔ 2 ^ 64 ≤ r.bitlen.toNat + 8 * n := by
  simp only [Regs.wouldOverflow, decide_eq_true_eq]

theorem Regs.accepts_iff : r.accepts n = true ↔ r.phase = .absorb ∧ r.bitlen.toNat + 8 * n < 2 ^ 64 := by
  simp only [Regs.accepts, Bool.and_eq_true, decide_eq_true_eq, Bool.not_eq_true', ← Bool.not_eq_true,
    Regs.wouldOverflow_iff, Nat.not_le]

theorem Regs.absorb_of_closed (closed : r.phase ≠ .absorb) : r.absorb n = r.raiseError .absorbNotOpen := by
  simp [Regs.absorb, closed]

theorem Regs.absorb_of_overflow (isOpen : r.phase = .absorb) (tooLong : 2 ^ 64 ≤ r.bitlen.toNat + 8 * n) :
    r.absorb n = { r.raiseError .lenOverflow with phase := .error } := by
  unfold Regs.absorb
  rw [if_neg (by simp [isOpen]), if_pos ((r.wouldOverflow_iff n).2 tooLong)]

theorem Regs.absorb_of_accepts (acc : r.accepts n = true) :
    r.absorb n = { (lanes r.dataIn n).foldl Regs.appendByte r with
      bitlen := r.bitlen + BitVec.ofNat 64 (8 * n) } := by
  have ⟨isOpen, fits⟩ := (r.accepts_iff n).1 acc
  unfold Regs.absorb
  rw [if_neg (by simp [isOpen]), if_neg (fun tooLong => absurd ((r.wouldOverflow_iff n).1 tooLong) (by omega))]

/-- The three outcomes of ABSORB. -/
theorem Regs.absorb_cases :
    (r.phase ≠ .absorb ∧ r.absorb n = r.raiseError .absorbNotOpen) ∨
    (r.phase = .absorb ∧ 2 ^ 64 ≤ r.bitlen.toNat + 8 * n ∧
      r.absorb n = { r.raiseError .lenOverflow with phase := .error }) ∨
    (r.accepts n = true ∧ r.absorb n = { (lanes r.dataIn n).foldl Regs.appendByte r with
      bitlen := r.bitlen + BitVec.ofNat 64 (8 * n) }) := by
  by_cases isOpen : r.phase = .absorb
  · by_cases tooLong : 2 ^ 64 ≤ r.bitlen.toNat + 8 * n
    · exact .inr (.inl ⟨isOpen, tooLong, r.absorb_of_overflow n isOpen tooLong⟩)
    · have acc := (r.accepts_iff n).2 ⟨isOpen, by omega⟩
      exact .inr (.inr ⟨acc, r.absorb_of_accepts n acc⟩)
  · exact .inl ⟨isOpen, r.absorb_of_closed n isOpen⟩

end AbsorbOutcomes

/-- An accepted length is added exactly (R9, R67). -/
theorem BitLen.add_of_fits (len : BitLen) (n : Nat) (fits : len.toNat + 8 * n < 2 ^ 64) :
    (len + BitVec.ofNat 64 (8 * n)).toNat = len.toNat + 8 * n := by
  simp only [BitVec.toNat_add, BitVec.toNat_ofNat]
  omega

section FinishOutcomes
variable (r : Regs)

theorem Regs.finish_of_closed (closed : r.phase ≠ .absorb) : r.finish = r.raiseError .finishNotOpen := by
  simp [Regs.finish, closed]

theorem Regs.finish_of_open (isOpen : r.phase = .absorb) :
    r.finish = { ({ r with
      buf := finalBlock r.buf r.bufcnt r.bitlen
      pad2 := decide (56 ≤ r.bufcnt.val) } : Regs).loadBlock with bufcnt := 0, phase := .final } := by
  simp [Regs.finish, isOpen]

end FinishOutcomes

section PaddingBlocks
variable (buf : Vector Byte 64) (r : Fin 64) (len : BitLen) (p : Fin 64)

theorem finalBlock_message (lt : p < r) : (finalBlock buf r len)[p.val] = buf[p.val] := by
  simp [finalBlock, lt]

theorem finalBlock_marker : (finalBlock buf r len)[r.val] = 0x80#8 := by simp [finalBlock]

theorem finalBlock_zero (gt : r < p) (low : p.val ≤ 55 ∨ 56 ≤ r.val) : (finalBlock buf r len)[p.val] = 0#8 := by
  have a : ¬ p < r := by omega
  have b : ¬ p = r := by omega
  by_cases at56 : 56 ≤ p.val
  · have c : ¬ r.val ≤ 55 := by omega
    simp [finalBlock, a, b, c]
  · simp [finalBlock, a, b, at56]

theorem finalBlock_length (fits : r.val ≤ 55) (j : Fin 8) : (finalBlock buf r len)[56 + j.val] = be64 len j := by
  have a : ¬ (⟨56 + j.val, by omega⟩ : Fin 64) < r := by simp [Fin.lt_def]; omega
  have b : ¬ (⟨56 + j.val, by omega⟩ : Fin 64) = r := by simp [Fin.ext_iff]; omega
  simp [finalBlock, a, b, fits]

theorem lengthBlock_zero (low : p.val ≤ 55) : (lengthBlock len)[p.val] = 0#8 := by
  have : ¬ 56 ≤ p.val := by omega
  simp [lengthBlock, this]

theorem lengthBlock_length (j : Fin 8) : (lengthBlock len)[56 + j.val] = be64 len j := by simp [lengthBlock]

end PaddingBlocks

end Sys2Proof.Machine
end

