-- ==== Sys2Proof/Laws/PerInstr.lean ====
section
/-! SUPPORT. One lemma for each command: its encoding fits its own row of the opcode table and uses no ignored bit. -/

namespace Sys2Proof.Laws.EncodeFitsRow

/-- The encoded word is of the command's row, and of no other, and has its ignored bits zero. -/
def Statement (i : Instr) : Prop :=
  WellFormed i = true →
    (opcodeTable.filter fun row => row.fits (encode i)).map OpcodeRow.mnemonic = [i.mnemonic] ∧
    encode i &&& usedBits i = encode i

theorem nop : Statement .nop := by unfold Statement; decide
theorem init : Statement .init := by unfold Statement; decide
theorem absorb (nb : BitVec 2) : Statement (.absorb nb) := by unfold Statement; revert nb; decide
theorem finish : Statement .finish := by unfold Statement; decide
theorem reserved4to7 (op : BitVec 4) : Statement (.reserved4to7 op) := by unfold Statement; revert op; decide
theorem reserved8toF (op : BitVec 4) : Statement (.reserved8toF op) := by unfold Statement; revert op; decide

end Sys2Proof.Laws.EncodeFitsRow
end

