-- ==== Sys2Proof/Laws/Sequencer.lean ====
section
/-! SUPPORT. What a micro-step and a loaded block can do, said once. -/

namespace Sys2Proof.Machine

theorem Regs.loadBlock_w_low (r : Regs) (j : Fin 16) : r.loadBlock.w[j.val] = loadWord r.buf j := by
  simp [Regs.loadBlock]

theorem Regs.loadBlock_w_high (r : Regs) (j : Fin 64) (high : 16 ≤ j.val) : r.loadBlock.w[j.val] = r.w[j.val] := by
  have : ¬ j.val < 16 := by omega
  simp [Regs.loadBlock, this]

theorem Seq.afterSched_succ (k : Fin 48) (lt : k.val + 1 < 48) : Seq.afterSched k = .sched ⟨k.val + 1, lt⟩ := by
  simp [Seq.afterSched, lt]

theorem Seq.afterSched_last (k : Fin 48) (last : k.val = 47) : Seq.afterSched k = .round 0 := by
  simp [Seq.afterSched, last]

theorem Seq.afterRound_succ (i : Fin 64) (lt : i.val + 1 < 64) : Seq.afterRound i = .round ⟨i.val + 1, lt⟩ := by
  simp [Seq.afterRound, lt]

theorem Seq.afterRound_last (i : Fin 64) (last : i.val = 63) : Seq.afterRound i = .ff := by
  simp [Seq.afterRound, last]

section MicroStep
variable {r : Regs}

theorem Regs.microStep_of_idle (at_ : r.seq = .idle) : r.microStep = r := by simp [Regs.microStep, at_]
theorem Regs.microStep_of_sched {k : Fin 48} (at_ : r.seq = .sched k) : r.microStep = r.sched k := by
  simp [Regs.microStep, at_]
theorem Regs.microStep_of_round {i : Fin 64} (at_ : r.seq = .round i) : r.microStep = r.round i := by
  simp [Regs.microStep, at_]
theorem Regs.microStep_of_ff (at_ : r.seq = .ff) : r.microStep = r.feedForward := by simp [Regs.microStep, at_]
theorem Regs.microStep_of_pad2 (at_ : r.seq = .pad2) : r.microStep = r.padTwo := by simp [Regs.microStep, at_]
theorem Regs.microStep_of_ser (at_ : r.seq = .ser) : r.microStep = r.serialize := by simp [Regs.microStep, at_]

/-- No micro-step touches BITLEN, BUFCNT, the error record or DATA_IN. -/
theorem Regs.microStep_frame (r : Regs) :
    r.microStep.bitlen = r.bitlen ∧ r.microStep.bufcnt = r.bufcnt ∧ r.microStep.lenerr = r.lenerr ∧
    r.microStep.cmderr = r.cmderr ∧ r.microStep.ecause = r.ecause ∧ r.microStep.dataIn = r.dataIn := by
  unfold Regs.microStep
  cases r.seq <;> simp [Regs.sched, Regs.round, Regs.feedForward, Regs.padTwo, Regs.serialize]

end MicroStep

@[simp] theorem Regs.microSteps_zero (r : Regs) : r.microSteps 0 = r := rfl

@[simp] theorem Regs.microSteps_succ (r : Regs) (n : Nat) : r.microSteps (n + 1) = r.microStep.microSteps n := rfl

theorem Regs.microSteps_add (m n : Nat) : ∀ r : Regs, r.microSteps (m + n) = (r.microSteps m).microSteps n := by
  induction m with
  | zero => intro r; simp
  | succ m ih => intro r; rw [Nat.succ_add]; exact ih r.microStep

/-- The last of several micro-steps, seen on its own. -/
theorem Regs.microSteps_succ_last (r : Regs) (n : Nat) : r.microSteps (n + 1) = (r.microSteps n).microStep :=
  Regs.microSteps_add n 1 r

end Sys2Proof.Machine
end

