-- ==== Sys2Proof/Tests/Slice0.lean ====
section
/-! SUPPORT. The model's own tests. Expected values come from the spec: its encodings, examples and vectors
(95_test_vectors.md), named at each test. Then, for every statement with hypotheses, a witness that meets them. -/

namespace Sys2Proof.Machine.Tests

/-! ### Helpers -/

/-- The block in a given phase and position, everything else as after reset. -/
def regsAt (phase : Phase) (seq : Seq) (bufcnt : Fin 64) (bitlen : Nat) : Regs :=
  { Regs.reset with phase := phase, seq := seq, bufcnt := bufcnt, bitlen := BitVec.ofNat 64 bitlen }

/-- A machine with the host's transactions and the turns given. -/
def machine (r : Regs) (host : List Txn) (turns : List Turn) : State := ⟨r, host, turns, none⟩

/-- The machine with nothing pending. -/
def alone (r : Regs) : State := machine r [] []

/-- The block after a command, from a quiet machine. -/
def afterCommand (i : Instr) (r : Regs) : Regs :=
  match exec i (alone r) with
  | .next t => t.regs
  | .fault _ => Regs.reset
  | .refused _ => Regs.reset

/-- The machine after one step. -/
def afterStep (s : State) : State :=
  match step s with
  | .next t => t
  | .fault _ => s
  | .refused _ => s

/-- The block after INIT with a DATA_IN word. -/
def opened (dataIn : Word) : Regs := { Regs.reset.init with dataIn := dataIn }

/-! ### Encoding and well-formedness (30_encoding.md R54 to R58, spec/opcode_table.json) -/

theorem test_decode_nop : decode 0b00000000000000000000000000000000#32 = .nop := by decide
theorem test_decode_nop_ignored : decode 0b11111111111111111111111111110000#32 = .nop := by decide
theorem test_decode_init : decode 0b00000000000000000000000000000001#32 = .init := by decide
theorem test_decode_init_ignored : decode 0xFFFFFFC1#32 = .init ∧ decode 0x00000031#32 = .init := by decide
theorem test_decode_absorb1 : decode 0b00000000000000000000000000000010#32 = .absorb 0 := by decide
theorem test_decode_absorb2 : decode 0b00000000000000000000000000010010#32 = .absorb 1 := by decide
theorem test_decode_absorb3 : decode 0b00000000000000000000000000100010#32 = .absorb 2 := by decide
theorem test_decode_absorb4 : decode 0b00000000000000000000000000110010#32 = .absorb 3 := by decide
theorem test_decode_finish : decode 0b00000000000000000000000000000011#32 = .finish := by decide
theorem test_decode_reserved4to7 : decode 0b00000000000000000000000000000111#32 = .reserved4to7 0x7 := by decide
theorem test_decode_reserved8toF : decode 0b00000000000000000000000000001010#32 = .reserved8toF 0xA := by decide
theorem test_encode_absorb4 : encode (.absorb 3) = 0x00000032#32 := by decide
theorem test_table_word : decodeTableWord 32 0x22 = some (.absorb 2) := by decide
theorem test_table_word_lengths : decodeTableWord 0 0 = none ∧ decodeTableWord 64 1 = none := by decide
theorem test_illFormed_reserved4to7_low : WellFormed (.reserved4to7 0x3) = false := by decide
theorem test_illFormed_reserved4to7_high : WellFormed (.reserved4to7 0x8) = false := by decide
theorem test_illFormed_reserved8toF : WellFormed (.reserved8toF 0x7) = false := by decide

/-! ### Primitives (vectors V-PRIM-1, V-PRIM-2) -/

theorem test_rotr_edges :
    rotr 0x00000001 1 = 0x80000000#32 ∧ rotr 0x80000000 31 = 0x00000001#32 ∧ rotr 0x12345678 7 = 0xf02468ac#32 := by
  decide
theorem test_small_sigmas : smallSigma0 0x12345678 = 0xe7fce6ee#32 ∧ smallSigma1 0x12345678 = 0xa1f78649#32 := by decide
theorem test_big_sigmas : bigSigma0 0x12345678 = 0x66146474#32 ∧ bigSigma1 0x12345678 = 0x3561abda#32 := by decide
theorem test_ch : ch 0x510e527f 0x9b05688c 0x1f83d9ab = 0x1f85c98c#32 := by decide
theorem test_maj : maj 0x6a09e667 0xbb67ae85 0x3c6ef372 = 0x3a6fe667#32 := by decide

/-! ### The whole function (worked examples E1, E2) -/

theorem test_sha256_empty : (Algorithm.sha256 []).take 4 = [0xe3#8, 0xb0#8, 0xc4#8, 0x42#8] := by decide +kernel
theorem test_sha256_abc :
    (Algorithm.sha256 [0x61, 0x62, 0x63]).drop 28 = [0xf2#8, 0x00#8, 0x15#8, 0xad#8] := by decide +kernel

/-! ### Commands -/

/-- V-HOST-12: the NOP is held while BUSY; the sequencer goes on and the write stays pending. -/
theorem test_nop_held :
    (afterStep (machine (regsAt .absorb .ff 2 528) [.write 0 .word 0] [.host])).host = [.write 0 .word 0] := by decide
/-- R103: NOP, in P_DONE, leaves every field. -/
theorem test_nop : afterCommand .nop (regsAt .done .idle 0 24) = regsAt .done .idle 0 24 := by decide
/-- V-HOST-2. -/
theorem test_init :
    (afterCommand .init Regs.reset).status = 0x00000010#32 ∧
    (afterCommand .init Regs.reset).read 0x5C = 0x5be0cd19#32 := by decide
/-- V-PAD-3 step f: INIT leaves P_ERROR. -/
theorem test_init_after_error :
    (afterCommand .init { regsAt .error .idle 63 0 with lenerr := true, ecause := .lenOverflow }).status = 0x10#32 := by
  decide
/-- R66, example. -/
theorem test_absorb3 :
    let t := afterCommand (.absorb 2) (opened 0x61626300)
    t.buf[0] = 0x61 ∧ t.buf[2] = 0x63 ∧ t.buf[3] = 0 ∧ t.status = 0x00000310#32 ∧ t.bitlen = 24 := by decide
/-- V-PAD-5, R68: an ABSORB.4 at BUFCNT = 62. -/
theorem test_absorb_crossing :
    let t := afterCommand (.absorb 3) { opened 0xA1B2C3D4 with bufcnt := 62, bitlen := 496 }
    t.w[15] = 0x0000a1b2#32 ∧ t.buf[0] = 0xc3 ∧ t.buf[1] = 0xd4 ∧ t.status = 0x00000211#32 ∧ t.bitlen = 528 := by
  decide
/-- V-PAD-2, "abc". -/
theorem test_finish_abc :
    let t := afterCommand .finish (afterCommand (.absorb 2) (opened 0x61626300))
    t.w[0] = 0x61626380#32 ∧ t.w[15] = 0x18#32 ∧ t.status = 0x00000021#32 ∧ t.pad2 = false := by decide
/-- V-PAD-4: r = 63. -/
theorem test_finish_63 :
    let t := afterCommand .finish { opened 0 with bufcnt := 63, bitlen := BitVec.ofNat 64 (2 ^ 64 - 8) }
    t.buf[63] = 0x80 ∧ t.buf[62] = 0 ∧ t.status = 0x00000021#32 ∧ t.pad2 = true := by decide
/-- V-HOST-5. -/
theorem test_reserved_7 : (afterCommand (.reserved4to7 0x7) (opened 0)).status = 0x00010018#32 := by decide
/-- V-HOST-6, first command. -/
theorem test_reserved_F : (afterCommand (.reserved8toF 0xF) (opened 0)).status = 0x00010018#32 := by decide
/-- V-PAD-3 step a. -/
theorem test_overflow :
    (afterCommand (.absorb 1) { opened 0 with bufcnt := 62, bitlen := BitVec.ofNat 64 (2 ^ 64 - 16) }).status
      = 0x00043E44#32 := by decide

/-! ### Micro-steps -/

/-- V-SCHED-1: W[18] of the empty message. -/
theorem test_sched_18 :
    ({ regsAt .final (.sched 2) 0 0 with w := Regs.reset.w.set 16 0x80000000 } : Regs).microStep.w[18]
      = 0x00205000#32 := by decide
/-- V-COMP-1: round 0 of "abc". -/
theorem test_round_0 :
    let v := ({ regsAt .final (.round 0) 0 24 with
      v := WorkRegs.ofHash initialHash, w := Regs.reset.w.set 0 0x61626380 } : Regs).microStep.v
    v.a = 0x5d6aebcd#32 ∧ v.e = 0xfa2a4622#32 ∧ v.h = 0x1f83d9ab#32 := by decide
/-- R89, example. -/
theorem test_ff :
    let t := ({ regsAt .final .ff 0 24 with
      h := initialHash, v := { Regs.reset.v with a := 0x506e3058, h := 0x961f4894 } } : Regs).microStep
    t.h[0] = 0xba7816bf#32 ∧ t.h[7] = 0xf20015ad#32 ∧ t.seq = .ser := by decide
/-- V-PAD-2, L = 56. -/
theorem test_pad2 :
    let t := ({ regsAt .final .pad2 0 448 with pad2 := true } : Regs).microStep
    t.buf[61] = 0 ∧ t.buf[62] = 0x01 ∧ t.buf[63] = 0xc0 ∧ t.pad2 = false ∧ t.w[15] = 0x1c0#32 := by decide
/-- R93, example. -/
theorem test_ser :
    let t := ({ regsAt .final .ser 0 24 with h := Regs.reset.h.set 1 0x8f01cfea } : Regs).microStep
    t.d[4] = 0x8f ∧ t.d[7] = 0xea ∧ t.status = 0x00000032#32 := by decide

/-! ### The bus -/

/-- V-BUS-1. -/
theorem test_bus_error :
    let s := afterStep (machine (opened 0) [.write 0x02 .word 5] [.host])
    s.regs = opened 0 ∧ s.err = some true ∧ s.ready = true := by decide
/-- V-HOST-13: DATA_IN is written while BUSY. -/
theorem test_data_in_busy :
    (afterStep (machine (regsAt .absorb (.sched 0) 2 528) [.write 0x08 .word 0x11223344] [.host])).regs.dataIn
      = 0x11223344#32 := by decide
/-- V-HOST-14: HSTATE while BUSY. -/
theorem test_hstate_busy :
    (afterStep (machine { opened 0 with seq := .round 5 } [.read 0x44 .word] [.host])).rdata
      = some 0xbb67ae85#32 := by decide
/-- V-HOST-15: reset while BUSY with the NOP held. -/
theorem test_reset_busy :
    let s := afterStep (machine (regsAt .absorb .ff 2 528) [.write 0 .word 0] [.reset])
    s.regs.status = 0 ∧ s.host = [.write 0 .word 0] := by decide
/-- R97: while `ready` is 0, as for a held write, `err` and `rdata` are not valid. -/
theorem test_err_not_valid :
    let s := afterStep (machine (regsAt .absorb .ff 2 528) [.write 0 .word 0] [.host])
    s.ready = false ∧ s.err = none ∧ s.rdata = none := by decide
/-- The request ports: `size` 2 at offset 4 is a read of STATUS (R97). -/
theorem test_ports : (⟨false, 0x04, 2, 0⟩ : RequestPorts).txn = .read 0x04 .word := by decide

/-! ### Witnesses: for each statement with hypotheses, inputs that meet them all -/

theorem witness_DecodeReadsExactlyTheUsedBits :
    WellFormed (.absorb 3) = true ∧ (0xFFFFFFF2#32 &&& usedBits (.absorb 3)) = encode (.absorb 3) ∧
    WellFormed (.reserved8toF 8) = true ∧ WellFormed (.reserved4to7 4) = true := by decide

theorem witness_NotationCommandRunsItsCommand :
    let s := machine (opened 0) [HostNotation.command (.absorb 3)] [.host]
    WellFormed (.absorb 3) = true ∧ s.regs.seq = .idle ∧ s.host = HostNotation.command (.absorb 3) :: [] ∧
    s.turns = .host :: [] := by decide

theorem witness_RotrMovesEachBit : (1 ≤ 1 ∧ 1 ≤ 31) ∧ (1 ≤ 31 ∧ 31 ≤ 31) ∧ 31 < 32 := by decide

/-- Bits 28 and 29, on either side of where a shift by 3 brings in zeros, and the two ends of the amounts. -/
theorem witness_SigmasMixBitsByTheirAmounts :
    28 < 32 ∧ 28 + 3 < 32 ∧ 29 < 32 ∧ ¬ 29 + 3 < 32 ∧ (1 ≤ 1 ∧ 1 ≤ 31) ∧ (1 ≤ 31 ∧ 31 ≤ 31) := by decide

theorem witness_PaddedLengthIsWholeBlocks :
    (List.replicate 55 (0 : Byte)).length % 64 ≤ 55 ∧ 56 ≤ (List.replicate 56 (0 : Byte)).length % 64 ∧
    0 < Algorithm.zeroCount (List.replicate 54 (0 : Byte)).length := by decide

/-- Idle, and while BUSY. -/
theorem witness_NopChangesNothing :
    (0xFFFFFFF0#32).extractLsb' 0 4 = 0#4 ∧
    (let s := machine (opened 0) [.write 0x00 .word 0xFFFFFFF0] [.host]
     s.regs.seq = .idle ∧ s.host = .write 0x00 .word 0xFFFFFFF0#32 :: [] ∧ s.turns = .host :: []) ∧
    (let s := machine (regsAt .absorb .ff 0 512) [.write 0x00 .word 0xFFFFFFF0] [.host]
     s.regs.seq ≠ .idle ∧ s.host = .write 0x00 .word 0xFFFFFFF0#32 :: [] ∧ s.turns = .host :: []) := by decide

theorem witness_InitOpensTransaction : (alone Regs.reset).regs.seq = .idle := by decide

theorem witness_ReservedOpcodeOnlyRecords :
    (Instr.reserved4to7 7 = .reserved4to7 7 ∨ Instr.reserved4to7 7 = .reserved8toF 7) ∧
    (Instr.reserved8toF 8 = .reserved4to7 8 ∨ Instr.reserved8toF 8 = .reserved8toF 8) := by decide

theorem witness_AbsorbWithoutTransactionIsRejected :
    (alone Regs.reset).regs.phase ≠ .absorb ∧ (alone (regsAt .error .idle 63 0)).regs.phase ≠ .absorb := by decide

theorem witness_AbsorbOverflowIsRejectedWhole :
    let s := alone (regsAt .absorb .idle 62 (2 ^ 64 - 16))
    s.regs.phase = .absorb ∧ 2 ^ 64 ≤ s.regs.bitlen.toNat + 8 * ((1 : BitVec 2).toNat + 1) := by decide

theorem witness_AbsorbAppendsWithinBlock :
    let s := alone (regsAt .absorb .idle 59 (8 * 59))
    s.regs.phase = .absorb ∧ s.regs.bitlen.toNat + 8 * ((3 : BitVec 2).toNat + 1) < 2 ^ 64 ∧
    s.regs.bufcnt.val + ((3 : BitVec 2).toNat + 1) < 64 := by decide

/-- Both at c = 60, n = 4, where nothing is left over, and at c = 63, n = 4, where three bytes are. -/
theorem witness_AbsorbCompletesBlock :
    (let s := alone (regsAt .absorb .idle 60 (8 * 60))
     s.regs.phase = .absorb ∧ s.regs.bitlen.toNat + 8 * ((3 : BitVec 2).toNat + 1) < 2 ^ 64 ∧
     64 ≤ s.regs.bufcnt.val + ((3 : BitVec 2).toNat + 1)) ∧
    (let s := alone (regsAt .absorb .idle 63 (8 * 63))
     s.regs.phase = .absorb ∧ s.regs.bitlen.toNat + 8 * ((3 : BitVec 2).toNat + 1) < 2 ^ 64 ∧
     64 < s.regs.bufcnt.val + ((3 : BitVec 2).toNat + 1)) := by decide

/-- The rejected form, and the open form at r = 55 and r = 56. -/
theorem witness_FinishPadsAndLoads :
    (alone Regs.reset).regs.phase ≠ .absorb ∧
    (let s := alone (regsAt .absorb .idle 55 440); s.regs.phase = .absorb ∧ s.regs.bufcnt.val ≤ 55) ∧
    (let s := alone (regsAt .absorb .idle 56 448); s.regs.phase = .absorb ∧ 56 ≤ s.regs.bufcnt.val) := by decide

/-- A step with all three fields recorded that goes on, and one that starts anew. -/
theorem witness_ErrorsKeepTheFirstCause :
    (let s := alone { regsAt .error .idle 0 0 with lenerr := true, cmderr := true, ecause := .lenOverflow }
     (∃ t, step s = .next t) ∧ s.restarts = false ∧ s.regs.lenerr = true ∧ s.regs.cmderr = true ∧
     s.regs.ecause ≠ .none) ∧
    (let s := machine Regs.reset [.write 0 .word 1] [.host]
     (∃ t, step s = .next t) ∧ s.restarts = true) := by
  refine ⟨⟨⟨_, rfl⟩, ?_⟩, ⟨_, rfl⟩, ?_⟩ <;> decide

theorem witness_SchedWritesOneWord :
    (regsAt .absorb (.sched 0) 0 512).seq = .sched 0 ∧ (1 : Fin 48).val = (0 : Fin 48).val + 1 ∧
    (regsAt .absorb (.sched 47) 0 512).seq = .sched 47 ∧ (47 : Fin 48).val = 47 := by decide

theorem witness_RoundShiftsWorkingRegisters :
    (regsAt .absorb (.round 62) 0 512).seq = .round 62 ∧ (63 : Fin 64).val = (62 : Fin 64).val + 1 ∧
    (regsAt .absorb (.round 63) 0 512).seq = .round 63 ∧ (63 : Fin 64).val = 63 := by decide

theorem witness_FeedForwardAddsWorkingRegisters :
    (let r := { regsAt .final .ff 0 512 with pad2 := true }; r.seq = .ff ∧ r.phase = .final ∧ r.pad2 = true) ∧
    (let r := regsAt .final .ff 0 512; r.seq = .ff ∧ r.phase = .final ∧ r.pad2 = false) ∧
    (let r := regsAt .absorb .ff 0 512; r.seq = .ff ∧ r.phase ≠ .final) := by decide

theorem witness_PadTwoLoadsLengthBlock : (regsAt .final .pad2 0 448).seq = .pad2 := by decide

/-- The invariant holds before SER, with no error recorded and with one. -/
theorem witness_SerializerWritesWholeDigest :
    ((regsAt .final .ser 0 24).seq = .ser ∧ (regsAt .final .ser 0 24).Inv ∧
      (regsAt .final .ser 0 24).cmderr = false) ∧
    (let r := { regsAt .final .ser 0 24 with cmderr := true, ecause := .reservedOp }
     r.seq = .ser ∧ r.Inv ∧ r.cmderr = true) := by
  refine ⟨⟨rfl, ?_, rfl⟩, rfl, ?_, rfl⟩ <;> constructor <;> simp [regsAt, Regs.reset]

theorem witness_MicroStepCountsOfEachPath :
    (regsAt .absorb .idle 0 512).phase = .absorb ∧
    ((regsAt .final .idle 0 24).phase = .final ∧ (regsAt .final .idle 0 24).pad2 = false) ∧
    (let r := { regsAt .final .idle 0 448 with pad2 := true }; r.phase = .final ∧ r.pad2 = true) := by decide

/-- One read for each clause of the map, at the ends of the ranges. -/
theorem witness_ReadReturnsRegisterAndChangesNothing :
    (let s := machine (opened 0) [.read 0x3C .word] [.host]
     s.host = .read 0x3C .word :: [] ∧ s.turns = .host :: [] ∧ 0x3C % 4 = 0 ∧ 0x3C < 0x80 ∧ 0x3C = 0x20 + 4 * (7 : Fin 8).val) ∧
    (let s := machine (opened 0) [.read 0x40 .word] [.host]
     s.host = .read 0x40 .word :: [] ∧ s.turns = .host :: [] ∧ 0x40 % 4 = 0 ∧ 0x40 < 0x80 ∧ 0x40 = 0x40 + 4 * (0 : Fin 8).val) ∧
    (∀ off ∈ [0x00, 0x04, 0x08, 0x0C, 0x10, 0x14, 0x18, 0x1C, 0x60, 0x7C], off % 4 = 0 ∧ off < 0x80) := by decide

/-- CTRL idle, DATA_IN while BUSY, and a write that is ignored. -/
theorem witness_WriteRunsCommandOrSetsDataIn :
    (let s := machine (opened 0) [.write 0x00 .word 3] [.host]
     s.host = .write 0x00 .word 3 :: [] ∧ s.turns = .host :: [] ∧ s.regs.seq = .idle) ∧
    (let s := machine (regsAt .absorb .ff 0 512) [.write 0x08 .word 3] [.host]
     s.host = .write 0x08 .word 3 :: [] ∧ s.turns = .host :: []) ∧
    (let s := machine (opened 0) [.write 0x7C .word 3] [.host]
     s.host = .write 0x7C .word 3 :: [] ∧ s.turns = .host :: [] ∧ 0x7C % 4 = 0 ∧ 0x7C < 0x80) := by decide

/-- A narrow access to CTRL, and an unaligned one just below 0x80. -/
theorem witness_BadAccessGetsBusErrorOnly :
    (let t := Txn.write 0x00 .byte 1
     t.off < 0x80 ∧ (t.size.bytes ≠ 4 ∨ t.off % 4 ≠ 0)) ∧
    (let t := Txn.read 0x7F .word
     t.off < 0x80 ∧ (t.size.bytes ≠ 4 ∨ t.off % 4 ≠ 0)) ∧
    (machine (opened 0) [.read 0x7F .word] [.host]).host = .read 0x7F .word :: [] := by decide

theorem witness_OutsideWindowIsNotForThisBlock :
    (machine (opened 0) [.read 0x80 .word] [.host]).host = .read 0x80 .word :: [] ∧
    0x80 ≤ (Txn.read 0x80 .word).off := by decide

theorem witness_HeldWriteStaysPending :
    let s := machine (regsAt .absorb .ff 0 512) [.write 0x00 .word 0] [.host]
    s.host = .write 0x00 .word 0 :: [] ∧ s.regs.seq ≠ .idle ∧ s.turns.head? ≠ some .reset := by decide

theorem witness_HoldEndsWithin228MicroSteps :
    let s := machine { regsAt .final (.sched 0) 0 448 with pad2 := true } [.write 0x00 .word 0] [.host, .sequencer]
    s.host = .write 0x00 .word 0 :: [] ∧ ∀ turn ∈ s.turns, turn ≠ .reset := by decide

theorem witness_StepRunsTheDecodedCommand :
    let s := machine (opened 0) [.write 0x00 .word 0x32] []
    s.host = .write 0x00 .word 0x32 :: [] ∧ s.regs.seq = .idle ∧ s.turns.head? ≠ some .reset := by decide

theorem witness_PlacedCommandRunsNext : 0xFFFFFFFF < 2 ^ 32 := by decide

theorem witness_SequencerStepIsOneMicroStep :
    (alone (regsAt .absorb .ff 0 512)).nextMove = .sequencer ∧
    (let s := machine (opened 0) [] [.sequencer]
     s.regs.seq = .idle ∧ s.host = [] ∧ s.turns.head? ≠ some .reset) := by decide

theorem witness_StepsAreTheEnabledEvents :
    (machine (regsAt .absorb .ff 0 512) [.read 0x04 .word] []).hostEvent = some (.read 0x04 .word) ∧
    (alone (regsAt .absorb .ff 0 512)).regs.seq ≠ .idle ∧
    (machine (regsAt .absorb .ff 0 512) [.read 0x04 .word] [.host]).nextMove = .host (.read 0x04 .word) ∧
    (machine (opened 0) [.write 0x00 .word 1] []).nextMove = .host (.write 0x00 .word 1) ∧
    (alone (regsAt .absorb .ff 0 512)).nextMove = .sequencer ∧
    (machine (opened 0) [] [.reset]).nextMove = .reset ∧
    (alone (opened 0)).nextMove = .quiet := by decide

theorem witness_ResetSetsEveryRegister :
    (machine (regsAt .absorb .ff 2 528) [] [.reset]).turns = .reset :: [] ∧
    ∃ t, step (machine (regsAt .absorb .ff 2 528) [] [.reset]) = .next t ∧ t.regs.phase = .idle :=
  ⟨rfl, _, rfl, rfl⟩

theorem witness_HeldWriteIsFirstCommandAfterReset :
    let s := machine (regsAt .absorb .ff 2 528) [.write 0x00 .word 0x32] [.reset]
    s.regs.seq ≠ .idle ∧ s.host = .write 0x00 .word 0x32 :: [] ∧ s.turns = .reset :: [] ∧
    ([] : List Turn).head? ≠ some .reset ∧ decode 0x32 = .absorb 3 := by decide

/-- A step that changes V, W, BUF and BITLEN (an ABSORB that fills a block), for H, D and DATA_IN one each, a FINISH that
changes SEQ from S_IDLE, BUFCNT, PAD2 and PHASE, and for LENERR and CMDERR with ECAUSE one each. -/
theorem witness_EachRegisterHasItsWriters :
    (let s := machine { opened 0x61626364 with bufcnt := 60, bitlen := 480 } [.write 0x00 .word 0x32] []
     s.nextMove ≠ .reset ∧ (afterStep s).regs.v ≠ s.regs.v ∧ (afterStep s).regs.w ≠ s.regs.w ∧
     (afterStep s).regs.buf ≠ s.regs.buf ∧ (afterStep s).regs.bitlen ≠ s.regs.bitlen) ∧
    (let s := machine Regs.reset [.write 0x00 .word 1] []
     s.nextMove ≠ .reset ∧ (afterStep s).regs.h ≠ s.regs.h) ∧
    (let s := alone { opened 0 with phase := .final, seq := .ser }
     s.nextMove ≠ .reset ∧ (afterStep s).regs.d ≠ s.regs.d) ∧
    (let s := machine Regs.reset [.write 0x08 .word 1] []
     s.nextMove ≠ .reset ∧ (afterStep s).regs.dataIn ≠ s.regs.dataIn) ∧
    (let s := machine { opened 0 with bufcnt := 56, bitlen := 448 } [.write 0x00 .word 3] []
     s.nextMove ≠ .reset ∧ s.regs.seq = .idle ∧ (afterStep s).regs.seq ≠ .idle ∧
     (afterStep s).regs.bufcnt ≠ s.regs.bufcnt ∧ (afterStep s).regs.pad2 ≠ s.regs.pad2 ∧
     (afterStep s).regs.phase ≠ s.regs.phase) ∧
    (let s := machine (regsAt .absorb .idle 63 (2 ^ 64 - 8)) [.write 0x00 .word 2] []
     s.nextMove ≠ .reset ∧ (afterStep s).regs.lenerr ≠ s.regs.lenerr) ∧
    (let s := machine (opened 0) [.write 0x00 .word 7] []
     s.nextMove ≠ .reset ∧ (afterStep s).regs.cmderr ≠ s.regs.cmderr) := by decide

/-- One change of phase for each of the five events. -/
theorem witness_PhaseChangesOnlyByItsEvents :
    (afterStep (machine (opened 0) [] [.reset])).regs.phase = .idle ∧
    (afterStep (machine Regs.reset [.write 0x00 .word 1] [])).regs.phase = .absorb ∧
    (afterStep (machine (opened 0) [.write 0x00 .word 3] [])).regs.phase = .final ∧
    (afterStep (alone (regsAt .final .ser 0 0))).regs.phase = .done ∧
    (afterStep (machine (regsAt .absorb .idle 63 (2 ^ 64 - 8)) [.write 0x00 .word 2] [])).regs.phase = .error := by
  decide

/-- By ABSORB, by FINISH and by PAD2. -/
theorem witness_BlocksAreLoadedOneAtATime :
    (machine (regsAt .absorb .idle 63 504) [.write 0x00 .word 2] []).loads ≠ [] ∧
    (machine (regsAt .absorb .idle 0 0) [.write 0x00 .word 3] []).loads ≠ [] ∧
    (alone { regsAt .final .pad2 0 448 with pad2 := true }).loads ≠ [] := by decide

/-- A state with a block in flight that meets the invariant, and its step. -/
theorem witness_EveryStepKeepsTheInvariant :
    (alone (regsAt .final .ff 0 24)).regs.Inv ∧ ∃ t, step (alone (regsAt .final .ff 0 24)) = .next t := by
  refine ⟨?_, _, rfl⟩
  constructor <;> simp [alone, machine, regsAt, Regs.reset]

/-- In P_DONE, and with BUSY = 1. -/
theorem witness_InvariantAsTheHostReadsIt :
    ((regsAt .done .idle 0 24).Inv ∧ (regsAt .done .idle 0 24).phase = .done) ∧
    ((regsAt .final .ff 0 24).Inv ∧ (regsAt .final .ff 0 24).status.getLsbD 0 = true) := by
  refine ⟨⟨?_, rfl⟩, ?_, by decide⟩
  · constructor <;> simp [regsAt, Regs.reset]
    decide
  · constructor <;> simp [regsAt, Regs.reset]

/-- Two machines with different stale cells of BUF and W, a block in flight. -/
theorem witness_UnsetCellsAreNeverRead :
    let r := regsAt .absorb (.sched 4) 2 528
    let s := alone r
    let t := alone { r with buf := r.buf.set 2 0xFF, w := r.w.set 20 0xFF }
    s ≠ t ∧ s.SameLive t ∧ ∃ s', step s = .next s' := by
  refine ⟨by decide, ⟨?_, rfl, rfl, rfl⟩, _, rfl⟩
  refine ⟨rfl, rfl, rfl, rfl, rfl, rfl, rfl, rfl, rfl, rfl, rfl, by decide, rfl, by decide⟩

/-- Run to P_DONE: reset, INIT, then FINISH and its 114 micro-steps. -/
theorem witness_transaction_to_done :
    let t := machine Regs.reset.init [.write 0x00 .word 3] []
    (machine Regs.reset [.write 0x00 .word 3] []).regs.seq = .idle ∧
    exec .init (machine Regs.reset [.write 0x00 .word 3] []) = .next t ∧
    sameTransaction 115 t = true ∧ ∃ u, run 115 t = .next u ∧ u.regs.phase = .done := by
  have ended : ∀ o : Host.Outcome State Fault Refusal,
      (match o with | .next u => decide (u.regs.phase = .done) | .fault _ => false | .refused _ => false) = true →
      ∃ u, o = .next u ∧ u.regs.phase = .done := by
    intro o done
    cases o with
    | next u => exact ⟨u, rfl, by simpa using done⟩
    | fault r => simp at done
    | refused r => simp at done
  exact ⟨rfl, rfl, by decide +kernel, ended _ (by decide +kernel)⟩

/-- A DATA_IN write before and after the last micro-step of a block. -/
theorem witness_InterleavingDoesNotMatter :
    let s := machine (regsAt .absorb .ff 0 512) [.write 0x08 .word 1] []
    (∀ turn ∈ [Turn.host], turn ≠ .reset) ∧ (∀ turn ∈ [Turn.sequencer], turn ≠ .reset) ∧
    ∃ u v, run 2 { s with turns := [.host] } = .next u ∧ run 2 { s with turns := [.sequencer] } = .next v ∧
      u.host = [] ∧ v.host = [] ∧ u.regs.seq = .idle ∧ v.regs.seq = .idle :=
  ⟨by decide, by decide, _, _, rfl, rfl, rfl, rfl, rfl, rfl⟩

end Sys2Proof.Machine.Tests
end

section
/-! The byte order of the primitives (00_scope.md R9, R10). -/

namespace Sys2Proof.Machine

/-- The number of a concatenation (R9): the left part is the more significant one. -/
theorem toNat_append_eq_add {m n : Nat} (x : BitVec m) (y : BitVec n) :
    (x ++ y).toNat = x.toNat * 2 ^ n + y.toNat := by
  rw [BitVec.toNat_append, ← Nat.shiftLeft_add_eq_or_of_lt y.isLt, Nat.shiftLeft_eq]

theorem toNat_be32 (b0 b1 b2 b3 : Byte) :
    (be32 b0 b1 b2 b3).toNat = b0.toNat * 2 ^ 24 + b1.toNat * 2 ^ 16 + b2.toNat * 2 ^ 8 + b3.toNat := by
  simp only [be32, toNat_append_eq_add]
  omega

theorem toNat_byteOf (w : Word) (j : Fin 4) : (byteOf w j).toNat = w.toNat / 2 ^ (24 - 8 * j.val) % 256 := by
  rw [byteOf, BitVec.extractLsb'_toNat, Nat.shiftRight_eq_div_pow]

theorem toNat_be64 (v : BitLen) (j : Fin 8) : (be64 v j).toNat = v.toNat / 2 ^ (56 - 8 * j.val) % 256 := by
  rw [be64, BitVec.extractLsb'_toNat, Nat.shiftRight_eq_div_pow]

/-- Its four base-256 digits are the whole of a word, as a word is below 2^32. -/
theorem be32_byteOf (w : Word) : be32 (byteOf w 0) (byteOf w 1) (byteOf w 2) (byteOf w 3) = w := by
  apply BitVec.eq_of_toNat_eq
  have bounded : w.toNat < 2 ^ 32 := w.isLt
  calc (be32 (byteOf w 0) (byteOf w 1) (byteOf w 2) (byteOf w 3)).toNat
      = w.toNat / 2 ^ 24 % 256 * 2 ^ 24 + w.toNat / 2 ^ 16 % 256 * 2 ^ 16 +
          w.toNat / 2 ^ 8 % 256 * 2 ^ 8 + w.toNat / 2 ^ 0 % 256 := by
        rw [toNat_be32, toNat_byteOf, toNat_byteOf, toNat_byteOf, toNat_byteOf]; rfl
    _ = w.toNat := by omega

/-- Settles O5, by the number of each primitive; the round trip compares base-256 digits. -/
theorem byteOrderIsBigEndian : Obligations.ByteOrderIsBigEndian :=
  ⟨toNat_be32, toNat_byteOf, toNat_be64, be32_byteOf⟩

end Sys2Proof.Machine
end

section
/-! What a step does to the block alone, by the event it takes (44_host_interface.md R108). -/

namespace Sys2Proof.Machine

/-- The block after a step: a command's change, no change, a new DATA_IN, a micro-step, or reset. -/
theorem step_regs {s t : State} (stepped : step s = .next t) :
    (∃ i, s.nextCommand = some i ∧ s.regs.seq = .idle ∧ t.regs = s.regs.execute i) ∨
    t.regs = s.regs ∨
    (∃ data, s.nextMove = .host (.write 0x08 .word data) ∧ t.regs = { s.regs with dataIn := data }) ∨
    (s.nextMove = .sequencer ∧ s.regs.seq ≠ .idle ∧ t.regs = s.regs.microStep) ∨
    (s.nextMove = .reset ∧ t.regs = Regs.reset) := by
  rcases step_cases s with ⟨txn, word, move, command, -, idle, next⟩ | ⟨txn, move, -, -, next⟩ |
    ⟨move, busy, next⟩ | ⟨move, next⟩ | ⟨-, -, next⟩ <;> cases stepped.symm.trans next
  · exact .inl ⟨decode word, by simp [State.nextCommand, move, command], idle, rfl⟩
  · rcases s.tick.dropTxn.access_regs txn with same | ⟨data, rfl, written⟩
    · exact .inr (.inl same)
    · exact .inr (.inr (.inl ⟨data, move, written⟩))
  · exact .inr (.inr (.inr (.inl ⟨move, busy, rfl⟩)))
  · exact .inr (.inr (.inr (.inr ⟨move, rfl⟩)))
  · exact .inr (.inl rfl)

/-- Appended bytes move SEQ only by a LOADBLK, to S_SCHED(16) (R66, R78). -/
theorem Regs.appendBytes_seq (bytes : List Byte) : ∀ r : Regs,
    (bytes.foldl Regs.appendByte r).seq = r.seq ∨ (bytes.foldl Regs.appendByte r).seq = .sched 0 := by
  induction bytes with
  | nil => exact fun r => .inl rfl
  | cons b bytes ih =>
    intro r
    have one : (r.appendByte b).seq = r.seq ∨ (r.appendByte b).seq = .sched 0 := by
      by_cases last : r.bufcnt = 63 <;> simp [Regs.appendByte, last]
    rcases ih (r.appendByte b) with same | loaded
    · exact one.imp same.trans same.trans
    · exact .inr loaded

/-- Bytes that do not fill the block load none (R66 line 6). -/
theorem Regs.appendBytes_of_fits (bytes : List Byte) : ∀ r : Regs, r.bufcnt.val + bytes.length < 64 →
    (bytes.foldl Regs.appendByte r).v = r.v ∧ (bytes.foldl Regs.appendByte r).w = r.w ∧
    (bytes.foldl Regs.appendByte r).seq = r.seq := by
  induction bytes with
  | nil => exact fun r _ => ⟨rfl, rfl, rfl⟩
  | cons b bytes ih =>
    intro r fits
    rw [List.length_cons] at fits
    have notLast : r.bufcnt ≠ 63 := fun last => by simp only [last] at fits; omega
    have kept : (r.appendByte b).v = r.v ∧ (r.appendByte b).w = r.w ∧ (r.appendByte b).seq = r.seq := by
      simp [r.appendByte_of_lt b notLast]
    have count := r.appendByte_bufcnt b
    obtain ⟨v, w, seq⟩ := ih (r.appendByte b) (by omega)
    exact ⟨v.trans kept.1, w.trans kept.2.1, seq.trans kept.2.2⟩

/-- An accepted ABSORB changes BUF, BUFCNT and BITLEN, and V, W and SEQ when it fills the block (R66). -/
theorem Regs.absorb_frame_of_accepts {r : Regs} {n : Nat} (le : n ≤ 4) (acc : r.accepts n = true) :
    ∃ buf v w seq bufcnt,
      r.absorb n = { r with buf := buf, v := v, w := w, seq := seq, bufcnt := bufcnt,
                            bitlen := r.bitlen + BitVec.ofNat 64 (8 * n) } ∧
      bufcnt.val = (r.bufcnt.val + n) % 64 ∧ (seq = r.seq ∨ seq = .sched 0) ∧
      (r.bufcnt.val + n < 64 → v = r.v ∧ w = r.w ∧ seq = r.seq) := by
  obtain ⟨h, d, bitlen, phase, pad2, lenerr, cmderr, ecause, dataIn, count⟩ :=
    Regs.appendBytes_frame (lanes r.dataIn n) r
  have seq := Regs.appendBytes_seq (lanes r.dataIn n) r
  have fits := Regs.appendBytes_of_fits (lanes r.dataIn n) r
  rw [lanes_length r.dataIn le] at count fits
  rw [r.absorb_of_accepts n acc]
  generalize (lanes r.dataIn n).foldl Regs.appendByte r = filled at *
  refine ⟨filled.buf, filled.v, filled.w, filled.seq, filled.bufcnt, ?_, count, seq, fits⟩
  cases filled
  simp_all

/-- The digest bytes of a hash state, word by word (R93). -/
theorem digestBytes_getElem (h : Vector Word 8) (k : Fin 8) (j : Fin 4) :
    (digestBytes h)[4 * k.val + j.val] = byteOf h[k.val] j := by
  have word : (4 * k.val + j.val) / 4 = k.val := by omega
  have byte : (4 * k.val + j.val) % 4 = j.val := by omega
  simp [digestBytes, word, byte]

section SequencerBranches

theorem Seq.afterSched_cases (k : Fin 48) :
    (∃ later, Seq.afterSched k = .sched later) ∨ Seq.afterSched k = .round 0 := by
  by_cases lt : k.val + 1 < 48
  · exact .inl ⟨_, Seq.afterSched_succ k lt⟩
  · exact .inr (Seq.afterSched_last k (by omega))

theorem Seq.afterRound_cases (i : Fin 64) :
    (∃ later, Seq.afterRound i = .round later) ∨ Seq.afterRound i = .ff := by
  by_cases lt : i.val + 1 < 64
  · exact .inl ⟨_, Seq.afterRound_succ i lt⟩
  · exact .inr (Seq.afterRound_last i (by omega))

variable {phase : Phase} {pad2 : Bool}

theorem Seq.afterFF_eq_idle : Seq.afterFF phase pad2 = .idle ↔ phase ≠ .final := by
  by_cases final : phase = .final <;> cases pad2 <;> simp [Seq.afterFF, final]

theorem Seq.afterFF_eq_pad2 : Seq.afterFF phase pad2 = .pad2 ↔ phase = .final ∧ pad2 = true := by
  by_cases final : phase = .final <;> cases pad2 <;> simp [Seq.afterFF, final]

theorem Seq.afterFF_eq_ser : Seq.afterFF phase pad2 = .ser ↔ phase = .final ∧ pad2 = false := by
  by_cases final : phase = .final <;> cases pad2 <;> simp [Seq.afterFF, final]

end SequencerBranches

end Sys2Proof.Machine
end

section
/-! The invariant of the reachable states holds at reset and every step keeps it (10_state.md R36, R38). -/

namespace Sys2Proof.Machine

/-- Settles O46: each field of the block after reset is a literal. -/
theorem invariantHoldsAtReset : Obligations.InvariantHoldsAtReset := by
  constructor <;> simp [State.reset, Regs.reset]

namespace Regs.Inv

section
variable {r : Regs}

theorem setDataIn (inv : r.Inv) (data : Word) : ({ r with dataIn := data } : Regs).Inv := { inv with }

/-- An error that is not the length overflow only sets CMDERR, with its cause (R110). -/
theorem raiseError (inv : r.Inv) {c : Cause} (isError : c ≠ .none) (notLength : c ≠ .lenOverflow) :
    (r.raiseError c).Inv where
  __ := inv
  lenerrPhase := by simpa [notLength] using inv.lenerrPhase
  causeFlags := by
    by_cases first : r.ecause = .none <;> simp [first, isError, notLength]

/-- The length overflow ends the transaction in P_ERROR with LENERR (R67). -/
theorem raiseOverflow (inv : r.Inv) (idle : r.seq = .idle) (isOpen : r.phase = .absorb) :
    ({ r.raiseError .lenOverflow with phase := .error } : Regs).Inv where
  __ := inv
  busyPhase busy := absurd idle busy
  finalBusy := nofun
  pad2Final set := by simpa [isOpen] using inv.pad2Final set
  tail at_ := by simp [idle] at at_
  count _ := inv.count (.inl isOpen)
  countZero := by simp
  lenerrPhase := by simp
  causeFlags := by
    by_cases first : r.ecause = .none <;> simp [first]
  digestDone := nofun
  digestElse _ := inv.digestElse (by simp [isOpen])
  untouched := nofun

theorem init (idle : r.seq = .idle) : r.init.Inv := by
  constructor <;> simp [idle]

theorem absorb (inv : r.Inv) (idle : r.seq = .idle) {n : Nat} (le : n ≤ 4) : (r.absorb n).Inv := by
  rcases r.absorb_cases n with ⟨-, eq⟩ | ⟨isOpen, -, eq⟩ | ⟨acc, -⟩
  · exact eq ▸ inv.raiseError nofun nofun
  · exact eq ▸ inv.raiseOverflow idle isOpen
  · obtain ⟨buf, v, w, seq, bufcnt, eq, count, position, -⟩ := Regs.absorb_frame_of_accepts le acc
    obtain ⟨isOpen, fits⟩ := (r.accepts_iff n).1 acc
    have length := BitLen.add_of_fits r.bitlen n fits
    have counted := inv.count (.inl isOpen)
    have whole := inv.wholeBytes
    rw [idle] at position
    rw [eq]
    exact { inv with
      busyPhase := fun _ => .inl isOpen
      finalBusy := by simp [isOpen]
      tail := by rcases position with rfl | rfl <;> simp
      serialNoPad2 := by rcases position with rfl | rfl <;> simp
      count := fun _ => by simp only [count, length]; omega
      countZero := by simp [isOpen]
      wholeBytes := by simp only [length]; omega
      untouched := by simp [isOpen] }

theorem finish (inv : r.Inv) : r.finish.Inv := by
  by_cases isOpen : r.phase = .absorb
  · rw [r.finish_of_open isOpen]
    exact { inv with
      busyPhase := fun _ => .inr rfl
      finalBusy := nofun
      pad2Final := fun _ => rfl
      tail := nofun
      serialNoPad2 := nofun
      count := by simp
      countZero := fun _ => rfl
      lenerrPhase := by simpa [isOpen] using inv.lenerrPhase
      digestDone := nofun
      digestElse := fun _ => inv.digestElse (by simp [isOpen])
      untouched := nofun }
  · rw [r.finish_of_closed isOpen]
    exact inv.raiseError nofun nofun

/-- Every command keeps the invariant of an idle block. -/
theorem execute (inv : r.Inv) (idle : r.seq = .idle) (i : Instr) : (r.execute i).Inv := by
  cases i with
  | nop => exact inv
  | init => exact init idle
  | absorb nb => exact inv.absorb idle (absorbCount_bounds nb).2
  | finish => exact inv.finish
  | reserved4to7 op => exact inv.raiseError nofun nofun
  | reserved8toF op => exact inv.raiseError nofun nofun

/-- A block stays in flight, outside S_PAD2 and S_SER, whatever V, W and BUF become and whether or not PAD2 is cleared. -/
theorem goOn (inv : r.Inv) (busy : r.seq ≠ .idle) {v : WorkRegs} {w : Vector Word 64} {buf : Vector Byte 64}
    {q : Seq} {pad2 : Bool} (clears : pad2 = true → r.pad2 = true) (busy' : q ≠ .idle)
    (noTail : ¬ (q = .pad2 ∨ q = .ser)) :
    ({ r with v := v, w := w, buf := buf, pad2 := pad2, seq := q } : Regs).Inv where
  __ := inv
  busyPhase _ := inv.busyPhase busy
  finalBusy _ := busy'
  pad2Final set := inv.pad2Final (clears set)
  tail at_ := absurd at_ noTail
  serialNoPad2 at_ := absurd (.inr at_) noTail

/-- FF changes H only with a block in flight, so neither in P_DONE nor in P_IDLE (R36 (a), R89). -/
theorem feedForward (inv : r.Inv) (busy : r.seq ≠ .idle) : r.feedForward.Inv := by
  have inFlight := inv.busyPhase busy
  have notDone : r.phase ≠ .done := by rcases inFlight with h | h <;> simp [h]
  have notIdle : r.phase ≠ .idle := by rcases inFlight with h | h <;> simp [h]
  exact { inv with
    busyPhase := fun _ => inFlight
    finalBusy := fun final idle => Seq.afterFF_eq_idle.1 idle final
    tail := fun at_ => at_.elim (fun h => (Seq.afterFF_eq_pad2.1 h).1) fun h => (Seq.afterFF_eq_ser.1 h).1
    serialNoPad2 := fun at_ => (Seq.afterFF_eq_ser.1 at_).2
    digestDone := fun done => absurd done notDone
    untouched := fun idle => absurd idle notIdle }

/-- SER copies H to D as it enters P_DONE, and clears BUSY (R93). -/
theorem serialize (inv : r.Inv) (at_ : r.seq = .ser) : r.serialize.Inv := by
  have final := inv.tail (.inr at_)
  unfold Regs.serialize
  exact { inv with
    busyPhase := fun busy => absurd rfl busy
    finalBusy := nofun
    pad2Final := fun set => absurd set (by simp [inv.serialNoPad2 at_])
    tail := nofun
    serialNoPad2 := nofun
    count := nofun
    countZero := by simp [inv.countZero (.inl final)]
    lenerrPhase := by simpa [final] using inv.lenerrPhase
    digestDone := fun _ => digestBytes_getElem r.h
    digestElse := fun notDone => absurd rfl notDone
    untouched := nofun }

/-- Every micro-step keeps the invariant. -/
theorem microStep (inv : r.Inv) (busy : r.seq ≠ .idle) : r.microStep.Inv := by
  cases at_ : r.seq with
  | idle => exact absurd at_ busy
  | sched k =>
    rw [r.microStep_of_sched at_]
    obtain ⟨later, next⟩ | next := Seq.afterSched_cases k <;>
      exact inv.goOn busy id (by simp [next]) (by simp [next])
  | round i =>
    rw [r.microStep_of_round at_]
    obtain ⟨later, next⟩ | next := Seq.afterRound_cases i <;>
      exact inv.goOn busy id (by simp [next]) (by simp [next])
  | ff => exact r.microStep_of_ff at_ ▸ inv.feedForward busy
  | pad2 => exact r.microStep_of_pad2 at_ ▸ inv.goOn busy nofun nofun (by simp)
  | ser => exact r.microStep_of_ser at_ ▸ inv.serialize at_

end

end Regs.Inv

/-- Settles O47, by the event of the step: a command, a DATA_IN write, a micro-step or reset. -/
theorem everyStepKeepsTheInvariant : Obligations.EveryStepKeepsTheInvariant := by
  intro s t inv stepped
  rcases step_regs stepped with ⟨i, -, idle, eq⟩ | eq | ⟨data, -, eq⟩ | ⟨-, busy, eq⟩ | ⟨-, eq⟩
  · exact eq ▸ inv.execute idle i
  · exact eq ▸ inv
  · exact eq ▸ inv.setDataIn data
  · exact eq ▸ inv.microStep busy
  · exact eq ▸ invariantHoldsAtReset

end Sys2Proof.Machine
end

section
/-! Which cells of BUF, W and V matter (10_state.md R37): states that agree in the others go on alike. -/

namespace Sys2Proof.Machine

/-- FINISH reads BUF below BUFCNT only (R69). -/
theorem finalBlock_congr {buf buf' : Vector Byte 64} {r : Fin 64} (len : BitLen)
    (below : ∀ p : Fin 64, p < r → buf[p.val] = buf'[p.val]) : finalBlock buf r len = finalBlock buf' r len := by
  refine Vector.ext fun p lt => ?_
  by_cases message : (⟨p, lt⟩ : Fin 64) < r
  · simpa [finalBlock, message] using below ⟨p, lt⟩ message
  · simp [finalBlock, message]

namespace Regs.SameLive

theorem refl (r : Regs) : r.SameLive r where
  h := rfl
  d := rfl
  bitlen := rfl
  bufcnt := rfl
  phase := rfl
  seq := rfl
  pad2 := rfl
  lenerr := rfl
  cmderr := rfl
  ecause := rfl
  dataIn := rfl
  buf _ _ := rfl
  inFlight := by cases r.seq <;> simp [Regs.SameInFlight]

variable {r t : Regs}

/-- No read of the window sees BUF, W or V (R100). -/
theorem readReg (same : r.SameLive t) (reg : Reg) : r.readReg reg = t.readReg reg := by
  cases reg <;>
    simp [Regs.readReg, Regs.status, Regs.busy, Regs.done, same.h, same.d, same.bitlen, same.bufcnt, same.phase,
      same.seq, same.lenerr, same.cmderr, same.ecause, same.dataIn]

theorem writeReg (same : r.SameLive t) (data : Word) (reg : Reg) :
    (r.writeReg data reg).SameLive (t.writeReg data reg) := by
  cases reg with
  | dataIn => exact { same with dataIn := rfl }
  | ctrl | status | bitlenLo | bitlenHi | digest k | hstate k | reserved => exact same

theorem raiseError (same : r.SameLive t) (c : Cause) : (r.raiseError c).SameLive (t.raiseError c) :=
  { same with
    lenerr := by simp [same.lenerr]
    cmderr := by simp [same.cmderr]
    ecause := by simp [same.ecause] }

theorem init (same : r.SameLive t) : r.init.SameLive t.init :=
  { same with
    h := rfl, d := rfl, bitlen := rfl, bufcnt := rfl, phase := rfl, pad2 := rfl, lenerr := rfl, cmderr := rfl, ecause := rfl
    buf := fun p below => absurd below (by simp) }

/-- LOADBLK reads the whole of BUF, and writes V and the words of W that SCHED(16) can read (R78). -/
theorem loadBlock (same : r.SameLive t) (full : r.buf = t.buf) : r.loadBlock.SameLive t.loadBlock :=
  { same with
    seq := rfl
    inFlight := by
      refine ⟨by simp [same.h], fun j low => ?_⟩
      have first : j.val < 16 := low
      have left := r.loadBlock_w_low ⟨j.val, first⟩
      have right := t.loadBlock_w_low ⟨j.val, first⟩
      rw [full] at left
      exact left.trans right.symm }

/-- The block of FINISH and PAD2 is written whole before it is loaded (R69, R70). -/
theorem loadPadded (same : r.SameLive t) (buf : Vector Byte 64) (pad2 : Bool) :
    ({ r with buf := buf, pad2 := pad2 } : Regs).loadBlock.SameLive ({ t with buf := buf, pad2 := pad2 } : Regs).loadBlock :=
  loadBlock { same with buf := fun _ _ => rfl, pad2 := rfl } rfl

/-- A byte is written at BUFCNT before BUFCNT counts it, and the 64th makes BUF complete before LOADBLK reads it (R66). -/
theorem appendByte (same : r.SameLive t) (b : Byte) : (r.appendByte b).SameLive (t.appendByte b) := by
  have upTo : ∀ p : Fin 64, p ≤ r.bufcnt →
      (r.buf.set r.bufcnt.val b)[p.val] = (t.buf.set t.bufcnt.val b)[p.val] := by
    intro p le
    by_cases here : p = r.bufcnt
    · simp [here, same.bufcnt]
    · have lt : p < r.bufcnt := by omega
      have other : r.bufcnt.val ≠ p.val := by omega
      simp [← same.bufcnt, other, same.buf p lt]
  by_cases last : r.bufcnt = 63
  · have last' : t.bufcnt = 63 := same.bufcnt ▸ last
    have full : r.buf.set r.bufcnt.val b = t.buf.set t.bufcnt.val b :=
      Vector.ext fun p lt => upTo ⟨p, lt⟩ (by simp [last, Fin.le_def]; omega)
    have put : ({ r with buf := r.buf.set r.bufcnt.val b } : Regs).SameLive { t with buf := t.buf.set t.bufcnt.val b } :=
      { same with buf := fun p below => upTo p (by omega) }
    rw [r.appendByte_of_last b last, t.appendByte_of_last b last']
    exact { put.loadBlock full with bufcnt := rfl, buf := fun p below => absurd below (by simp) }
  · have notLast' : t.bufcnt ≠ 63 := same.bufcnt ▸ last
    rw [r.appendByte_of_lt b last, t.appendByte_of_lt b notLast']
    exact { same with
      bufcnt := by simp [same.bufcnt]
      buf := fun p below => upTo p (by simp only [Fin.lt_def, Fin.le_def, Fin.val_add] at *; omega) }

theorem appendBytes (bytes : List Byte) : ∀ {r t : Regs}, r.SameLive t →
    (bytes.foldl Regs.appendByte r).SameLive (bytes.foldl Regs.appendByte t) := by
  induction bytes with
  | nil => exact id
  | cons b bytes ih => exact fun same => ih (same.appendByte b)

theorem absorb (same : r.SameLive t) (n : Nat) : (r.absorb n).SameLive (t.absorb n) := by
  rcases r.absorb_cases n with ⟨closed, eq⟩ | ⟨isOpen, tooLong, eq⟩ | ⟨acc, eq⟩
  · rw [eq, t.absorb_of_closed n (same.phase ▸ closed)]
    exact same.raiseError _
  · rw [eq, t.absorb_of_overflow n (same.phase ▸ isOpen) (same.bitlen ▸ tooLong)]
    exact { same.raiseError .lenOverflow with phase := rfl }
  · have acc' : t.accepts n = true := by
      rw [Regs.accepts_iff, ← same.phase, ← same.bitlen]
      exact (r.accepts_iff n).1 acc
    rw [eq, t.absorb_of_accepts n acc', same.dataIn, same.bitlen]
    exact { appendBytes (lanes t.dataIn n) same with bitlen := rfl }

theorem finish (same : r.SameLive t) : r.finish.SameLive t.finish := by
  by_cases isOpen : r.phase = .absorb
  · have final : finalBlock r.buf r.bufcnt r.bitlen = finalBlock t.buf t.bufcnt t.bitlen := by
      rw [finalBlock_congr r.bitlen same.buf, same.bufcnt, same.bitlen]
    rw [r.finish_of_open isOpen, t.finish_of_open (same.phase ▸ isOpen), final, same.bufcnt]
    exact { same.loadPadded _ _ with bufcnt := rfl, phase := rfl, buf := fun p below => absurd below (by simp) }
  · rw [r.finish_of_closed isOpen, t.finish_of_closed (same.phase ▸ isOpen)]
    exact same.raiseError _

theorem execute (same : r.SameLive t) (i : Instr) : (r.execute i).SameLive (t.execute i) := by
  cases i with
  | nop => exact same
  | init => exact same.init
  | absorb nb => exact same.absorb _
  | finish => exact same.finish
  | reserved4to7 op => exact same.raiseError _
  | reserved8toF op => exact same.raiseError _

/-- SCHED(t) reads words below W[t] and writes W[t]; after t = 63 the schedule is complete (R79). -/
theorem sched (same : r.SameLive t) {k : Fin 48} (at_ : r.seq = .sched k) : (r.sched k).SameLive (t.sched k) := by
  obtain ⟨v, w⟩ : r.v = t.v ∧ ∀ j : Fin 64, j.val < k.val + 16 → r.w[j.val] = t.w[j.val] := by
    simpa [at_, Regs.SameInFlight] using same.inFlight
  have word : schedWord r.w k = schedWord t.w k := by
    have at0 := w ⟨k.val, by omega⟩ (by simp)
    have at1 := w ⟨k.val + 1, by omega⟩ (by simp)
    have at9 := w ⟨k.val + 9, by omega⟩ (by simp)
    have at14 := w ⟨k.val + 14, by omega⟩ (by simp)
    simp only at at0 at1 at9 at14
    simp only [schedWord, at0, at1, at9, at14]
  have upTo : ∀ j : Fin 64, j.val < k.val + 17 → (r.sched k).w[j.val] = (t.sched k).w[j.val] := by
    intro j lt
    by_cases here : k.val + 16 = j.val
    · simp [Regs.sched, here, word]
    · simp [Regs.sched, here, w j (by omega)]
  refine { same with seq := rfl, inFlight := ?_ }
  by_cases lt : k.val + 1 < 48
  · rw [Regs.sched, Seq.afterSched_succ k lt]
    exact ⟨v, fun j low => upTo j (by simp at low; omega)⟩
  · rw [Regs.sched, Seq.afterSched_last k (by omega)]
    exact ⟨v, Vector.ext fun j bound => upTo ⟨j, bound⟩ (by simp; omega)⟩

/-- ROUND(i) reads V and W[i] and writes V (R88). -/
theorem round (same : r.SameLive t) {i : Fin 64} (at_ : r.seq = .round i) : (r.round i).SameLive (t.round i) := by
  obtain ⟨v, w⟩ : r.v = t.v ∧ r.w = t.w := by simpa [at_, Regs.SameInFlight] using same.inFlight
  have shifted : (r.round i).v = (t.round i).v := by simp [Regs.round, v, w]
  refine { same with seq := rfl, inFlight := ?_ }
  obtain ⟨later, next⟩ | next := Seq.afterRound_cases i
  · rw [Regs.round, next]
    exact ⟨shifted, w⟩
  · rw [Regs.round, next]
    exact shifted

/-- FF reads H and V; no cell of V or W is read between it and the next LOADBLK (R89, R37). -/
theorem feedForward (same : r.SameLive t) (at_ : r.seq = .ff) : r.feedForward.SameLive t.feedForward := by
  have v : r.v = t.v := by simpa [at_, Regs.SameInFlight] using same.inFlight
  refine { same with
    h := by simp [Regs.feedForward, same.h, v]
    seq := by simp [Regs.feedForward, same.phase, same.pad2]
    inFlight := ?_ }
  by_cases final : r.phase = .final <;> cases pad2 : r.pad2 <;>
    simp [Regs.feedForward, Seq.afterFF, final, pad2, Regs.SameInFlight]

/-- PAD2 reads BITLEN only and writes the whole of BUF (R70). -/
theorem padTwo (same : r.SameLive t) : r.padTwo.SameLive t.padTwo := by
  have block := congrArg lengthBlock same.bitlen
  simp only [Regs.padTwo, block]
  exact same.loadPadded (lengthBlock t.bitlen) false

/-- SER reads H only (R93). -/
theorem serialize (same : r.SameLive t) : r.serialize.SameLive t.serialize := by
  have digest := congrArg digestBytes same.h
  unfold Regs.serialize
  rw [digest]
  generalize digestBytes t.h = d
  exact { same with
    d := rfl
    phase := rfl
    seq := rfl
    inFlight := trivial }

theorem microStep (same : r.SameLive t) : r.microStep.SameLive t.microStep := by
  cases at_ : r.seq with
  | idle => rwa [r.microStep_of_idle at_, t.microStep_of_idle (same.seq ▸ at_)]
  | sched k => exact r.microStep_of_sched at_ ▸ t.microStep_of_sched (same.seq ▸ at_) ▸ same.sched at_
  | round i => exact r.microStep_of_round at_ ▸ t.microStep_of_round (same.seq ▸ at_) ▸ same.round at_
  | ff => exact r.microStep_of_ff at_ ▸ t.microStep_of_ff (same.seq ▸ at_) ▸ same.feedForward at_
  | pad2 => exact r.microStep_of_pad2 at_ ▸ t.microStep_of_pad2 (same.seq ▸ at_) ▸ same.padTwo
  | ser => exact r.microStep_of_ser at_ ▸ t.microStep_of_ser (same.seq ▸ at_) ▸ same.serialize

end Regs.SameLive

namespace State.SameLive

variable {s t : State}

/-- The choice of the next event sees no cell of BUF, W or V (R99, R108). -/
theorem nextMove (same : s.SameLive t) : s.nextMove = t.nextMove := by
  have busy : s.regs.busy = t.regs.busy := by rw [Regs.busy, same.regs.seq, Regs.busy]
  have holds : ∀ txn, s.regs.holds txn = t.regs.holds txn := fun txn => by rw [Regs.holds, busy, Regs.holds]
  have event : s.hostEvent = t.hostEvent := by
    rw [State.hostEvent, State.hostEvent, same.host]
    cases t.host with
    | nil => rfl
    | cons txn rest => simp only [holds]
  have sequencer : s.sequencerFirst = t.sequencerFirst := by
    rw [State.sequencerFirst, event, busy, State.sequencerFirst]
  have host : s.hostFirst = t.hostFirst := by rw [State.hostFirst, event, busy, State.hostFirst]
  rw [State.nextMove, same.turns, sequencer, host, State.nextMove]

theorem onRegs (same : s.SameLive t) {f : Regs → Regs} (keeps : (f s.regs).SameLive (f t.regs)) :
    (s.onRegs f).SameLive (t.onRegs f) :=
  { same with regs := keeps }

theorem answer (same : s.SameLive t) (rep : Reply) : (s.answer rep).SameLive (t.answer rep) :=
  { same with reply := rfl }

theorem tick (same : s.SameLive t) : s.tick.SameLive t.tick :=
  { same with turns := congrArg List.tail same.turns, reply := rfl }

theorem dropTxn (same : s.SameLive t) : s.dropTxn.SameLive t.dropTxn :=
  { same with host := congrArg List.tail same.host }

theorem access (same : s.SameLive t) (txn : Txn) : (s.access txn).SameLive (t.access txn) := by
  unfold State.access
  split
  · exact same.answer _
  split
  · exact same.answer _
  cases txn with
  | read off size =>
    have data : s.regs.read off = t.regs.read off := same.regs.readReg (regAt off)
    simpa only [data] using same.answer (.okayData (t.regs.read off))
  | write off size data => exact (same.answer .okay).onRegs (same.regs.writeReg data (regAt off))

/-- A transaction is answered alike. -/
theorem perform (same : s.SameLive t) (txn : Txn) :
    ∃ s' t', s.perform txn = .next s' ∧ t.perform txn = .next t' ∧ s'.SameLive t' := by
  cases command : txn.command with
  | none =>
    exact ⟨_, _, by rw [State.perform, command], by rw [State.perform, command], same.access txn⟩
  | some word =>
    have performed : ∀ u : State, u.perform txn = .next ((u.answer .okay).onRegs fun r => r.execute (decode word)) := by
      simp [State.perform, command, exec_eq]
    exact ⟨_, _, performed s, performed t, (same.answer .okay).onRegs (same.regs.execute (decode word))⟩

/-- Every move is made alike. -/
theorem make (same : s.SameLive t) (move : Move) :
    ∃ s' t', s.make move = .next s' ∧ t.make move = .next t' ∧ s'.SameLive t' := by
  cases move with
  | host txn => exact same.tick.dropTxn.perform txn
  | sequencer => exact ⟨_, _, rfl, rfl, same.tick.onRegs same.regs.microStep⟩
  | reset => exact ⟨_, _, rfl, rfl, same.tick.onRegs (.refl _)⟩
  | quiet => exact ⟨_, _, rfl, rfl, same.tick⟩

end State.SameLive

/-- Settles O49: two such machines choose the same event, and every event keeps them alike. -/
theorem unsetCellsAreNeverRead : Obligations.UnsetCellsAreNeverRead := by
  intro s t s' same stepped
  obtain ⟨s'', t', left, right, after⟩ := same.make s.nextMove
  cases stepped.symm.trans left
  exact ⟨t', by rw [step, ← same.nextMove, right], after⟩

end Sys2Proof.Machine
end

section
/-! STATUS as a number, and what the host reads of the invariant (10_state.md R30, R36, R38). -/

namespace Sys2Proof.Machine

/-- A field put above all bits of a word adds its value, shifted. -/
theorem toNat_or_field {x y : Word} {m n : Nat} (k : Nat) (lower : x.toNat = m) (field : y.toNat = n) (below : m < 2 ^ k)
    (fits : 2 ^ k * n < 2 ^ 32) : (x ||| y <<< k).toNat = m + 2 ^ k * n := by
  subst lower field
  rw [BitVec.toNat_or, BitVec.toNat_shiftLeft, Nat.shiftLeft_eq, Nat.mul_comm, Nat.mod_eq_of_lt fits, Nat.or_comm,
    ← Nat.two_pow_add_eq_or_of_lt below, Nat.add_comm]

theorem toNat_flagBit (b : Bool) : (flagBit b).toNat = b.toNat := by cases b <;> rfl

theorem Phase.code_le (phase : Phase) : phase.code.toNat ≤ 4 := by cases phase <;> decide

theorem Cause.code_le (cause : Cause) : cause.code.toNat ≤ 4 := by cases cause <;> decide

/-- STATUS as a number (R30): each field lies above the ones before it. -/
theorem Regs.toNat_status (r : Regs) :
    r.status.toNat = r.busy.toNat + 2 * r.done.toNat + 4 * r.lenerr.toNat + 8 * r.cmderr.toNat +
      16 * r.phase.code.toNat + 256 * r.bufcnt.val + 65536 * r.ecause.code.toNat := by
  have busyLe := r.busy.toNat_le
  have doneLe := r.done.toNat_le
  have lenerrLe := r.lenerr.toNat_le
  have cmderrLe := r.cmderr.toNat_le
  have phaseLe := r.phase.code_le
  have causeLe := r.ecause.code_le
  have countLt := r.bufcnt.isLt
  have phaseWord : (r.phase.code.setWidth 32).toNat = r.phase.code.toNat := by simp; omega
  have countWord : (BitVec.ofNat 32 r.bufcnt.val).toNat = r.bufcnt.val := by simp; omega
  have causeWord : (r.ecause.code.setWidth 32).toNat = r.ecause.code.toNat := by simp; omega
  have done := toNat_or_field 1 (toNat_flagBit r.busy) (toNat_flagBit r.done) (by omega) (by omega)
  have lenerr := toNat_or_field 2 done (toNat_flagBit r.lenerr) (by omega) (by omega)
  have cmderr := toNat_or_field 3 lenerr (toNat_flagBit r.cmderr) (by omega) (by omega)
  have phase := toNat_or_field 4 cmderr phaseWord (by omega) (by omega)
  have count := toNat_or_field 8 phase countWord (by omega) (by omega)
  exact toNat_or_field 16 count causeWord (by omega) (by omega)

/-- Settles O30, by the number of each flag and each code. -/
theorem statusIsItsFields : Obligations.StatusIsItsFields := by
  intro r
  have busy : r.busy.toNat = if r.seq = .idle then 0 else 1 := by
    by_cases idle : r.seq = .idle <;> simp [Regs.busy, idle]
  have done : 2 * r.done.toNat = if r.phase = .done then 2 else 0 := by
    by_cases at_ : r.phase = .done <;> simp [Regs.done, at_]
  have lenerr : 4 * r.lenerr.toNat = if r.lenerr then 4 else 0 := by cases r.lenerr <;> rfl
  have cmderr : 8 * r.cmderr.toNat = if r.cmderr then 8 else 0 := by cases r.cmderr <;> rfl
  rw [r.toNat_status, busy, done, lenerr, cmderr]
  cases r.phase <;> cases r.ecause <;> rfl

/-- BUSY is bit 0 of STATUS (R30). -/
theorem Regs.status_bit_busy (r : Regs) : r.status.getLsbD 0 = r.busy := by
  have number := r.toNat_status
  rw [BitVec.getLsbD, Nat.testBit_zero]
  cases busy : r.busy <;> simp [busy] at number ⊢ <;> omega

/-- PHASE is bits 6:4 of STATUS (R30). -/
theorem Regs.status_field_phase (r : Regs) : r.status.extractLsb' 4 3 = r.phase.code := by
  have number := r.toNat_status
  have busyLe := r.busy.toNat_le
  have doneLe := r.done.toNat_le
  have lenerrLe := r.lenerr.toNat_le
  have cmderrLe := r.cmderr.toNat_le
  have phaseLe := r.phase.code_le
  apply BitVec.eq_of_toNat_eq
  rw [BitVec.extractLsb'_toNat, Nat.shiftRight_eq_div_pow]
  omega

section Window

theorem regAt_digest : ∀ k : Fin 8, regAt (0x20 + 4 * k.val) = .digest k := by decide

theorem regAt_hstate : ∀ k : Fin 8, regAt (0x40 + 4 * k.val) = .hstate k := by decide

variable (r : Regs) (k : Fin 8)

/-- DIGESTk reads the word whose bytes D holds at 4k (R41). -/
theorem Regs.read_digest {word : Word} (bytes : ∀ j : Fin 4, r.d[4 * k.val + j.val] = byteOf word j) :
    r.read (0x20 + 4 * k.val) = word := by
  rw [Regs.read, regAt_digest, Regs.readReg, ← be32_byteOf word, ← bytes 0, ← bytes 1, ← bytes 2, ← bytes 3]
  rfl

theorem Regs.read_hstate : r.read (0x40 + 4 * k.val) = r.h[k.val] := by
  rw [Regs.read, regAt_hstate, Regs.readReg]

end Window

/-- Settles O48: a word is its bytes again, and the fields of STATUS are BUSY and PHASE. -/
theorem invariantAsTheHostReadsIt : Obligations.InvariantAsTheHostReadsIt := by
  intro r inv
  refine ⟨fun k => ?_, fun busy => ?_, ?_⟩
  · split
    · next done => rw [r.read_hstate, r.read_digest k (inv.digestDone done k)]
    · next notDone =>
      have zeroByte : ∀ j : Fin 4, byteOf 0 j = 0 := by decide
      exact r.read_digest k fun j => (inv.digestElse notDone ⟨4 * k.val + j.val, by omega⟩).trans (zeroByte j).symm
  · rw [r.status_bit_busy, Regs.busy_iff] at busy
    rw [r.status_field_phase]
    exact (inv.busyPhase busy).imp (congrArg Phase.code) (congrArg Phase.code)
  · have whole := inv.wholeBytes
    have lt := r.bitlen.isLt
    omega

end Sys2Proof.Machine
end

section
/-! Which steps can change each register, and PHASE in particular (10_state.md R15 to R27, R23). -/

namespace Sys2Proof.Machine

/-- The block `u` differs from the block of `s` only in registers that the next step of `s` may write. -/
structure State.Writes (s : State) (u : Regs) : Prop where
  h : u.h ≠ s.regs.h → s.nextCommand = some .init ∨ (s.nextMove = .sequencer ∧ s.regs.seq = .ff)
  v : u.v ≠ s.regs.v → s.loads ≠ [] ∨ (s.nextMove = .sequencer ∧ ∃ i : Fin 64, s.regs.seq = .round i)
  w : u.w ≠ s.regs.w → s.loads ≠ [] ∨ (s.nextMove = .sequencer ∧ ∃ k : Fin 48, s.regs.seq = .sched k)
  buf : u.buf ≠ s.regs.buf →
    s.absorbs ≠ [] ∨ s.nextCommand = some .finish ∨ (s.nextMove = .sequencer ∧ s.regs.seq = .pad2)
  d : u.d ≠ s.regs.d → s.nextCommand = some .init ∨ (s.nextMove = .sequencer ∧ s.regs.seq = .ser)
  bitlen : u.bitlen ≠ s.regs.bitlen → s.nextCommand = some .init ∨ s.absorbs ≠ []
  dataIn : u.dataIn ≠ s.regs.dataIn → ∃ data : Word, s.nextMove = .host (.write 0x08 .word data)
  bufcnt : u.bufcnt ≠ s.regs.bufcnt → s.nextCommand = some .init ∨ s.absorbs ≠ [] ∨ s.nextCommand = some .finish
  pad2 : u.pad2 ≠ s.regs.pad2 →
    s.nextCommand = some .init ∨ s.nextCommand = some .finish ∨ (s.nextMove = .sequencer ∧ s.regs.seq = .pad2)
  seq : u.seq ≠ s.regs.seq → s.loads ≠ [] ∨ (s.nextMove = .sequencer ∧ s.regs.seq ≠ .idle)
  start : s.regs.seq = .idle → u.seq ≠ .idle → s.loads ≠ [] ∧ u.seq = .sched 0 ∧
    ((∃ nb : BitVec 2, s.nextCommand = some (.absorb nb)) ∨ s.nextCommand = some .finish)
  phase : u.phase ≠ s.regs.phase → s.nextCommand = some .init ∨ s.nextCommand = some .finish ∨
    (∃ nb : BitVec 2, s.nextCommand = some (.absorb nb)) ∨ (s.nextMove = .sequencer ∧ s.regs.seq = .ser)
  lenerr : u.lenerr ≠ s.regs.lenerr → s.nextCommand = some .init ∨ ∃ nb : BitVec 2, s.nextCommand = some (.absorb nb)
  record : u.cmderr ≠ s.regs.cmderr ∨ u.ecause ≠ s.regs.ecause → ∃ i : Instr, s.nextCommand = some i ∧ i ≠ .nop

namespace State.Writes

variable {s : State}

theorem unchanged (s : State) : s.Writes s.regs where
  h changed := absurd rfl changed
  v changed := absurd rfl changed
  w changed := absurd rfl changed
  buf changed := absurd rfl changed
  d changed := absurd rfl changed
  bitlen changed := absurd rfl changed
  dataIn changed := absurd rfl changed
  bufcnt changed := absurd rfl changed
  pad2 changed := absurd rfl changed
  seq changed := absurd rfl changed
  start idle busy := absurd idle busy
  phase changed := absurd rfl changed
  lenerr changed := absurd rfl changed
  record changed := changed.elim (absurd rfl) (absurd rfl)

theorem setDataIn {data : Word} (move : s.nextMove = .host (.write 0x08 .word data)) :
    s.Writes { s.regs with dataIn := data } :=
  { unchanged s with dataIn := fun _ => ⟨data, move⟩ }

/-- A rejected command other than an ABSORB too long sets CMDERR and ECAUSE alone (R110). -/
theorem raiseError {i : Instr} (command : s.nextCommand = some i) (notNop : i ≠ .nop) {c : Cause}
    (notLength : c ≠ .lenOverflow) : s.Writes (s.regs.raiseError c) :=
  { unchanged s with
    lenerr := fun changed => absurd (by simp [notLength]) changed
    record := fun _ => ⟨i, command, notNop⟩ }

theorem init (command : s.nextCommand = some .init) : s.Writes s.regs.init :=
  { unchanged s with
    h := fun _ => .inl command
    d := fun _ => .inl command
    bitlen := fun _ => .inl command
    bufcnt := fun _ => .inl command
    pad2 := fun _ => .inl command
    phase := fun _ => .inl command
    lenerr := fun _ => .inl command
    record := fun _ => ⟨.init, command, nofun⟩ }

theorem absorb {nb : BitVec 2} (command : s.nextCommand = some (.absorb nb)) :
    s.Writes (s.regs.absorb (absorbCount nb)) := by
  obtain ⟨ge, le⟩ := absorbCount_bounds nb
  rcases s.regs.absorb_cases (absorbCount nb) with ⟨-, eq⟩ | ⟨-, -, eq⟩ | ⟨acc, -⟩
  · exact eq ▸ raiseError command nofun nofun
  · rw [eq]
    exact { unchanged s with
      phase := fun _ => .inr (.inr (.inl ⟨nb, command⟩))
      lenerr := fun _ => .inr ⟨nb, command⟩
      record := fun _ => ⟨.absorb nb, command, nofun⟩ }
  · have absorbs : s.absorbs ≠ [] := by
      have length := lanes_length s.regs.dataIn le
      rw [ne_eq, ← List.length_eq_zero_iff]
      simp only [State.absorbs, command, Regs.absorbed, acc, if_true, length]
      omega
    obtain ⟨buf, v, w, seq, bufcnt, eq, -, position, fits⟩ := Regs.absorb_frame_of_accepts le acc
    have loads : ¬ (v = s.regs.v ∧ w = s.regs.w ∧ seq = s.regs.seq) → s.loads ≠ [] := by
      intro changed
      have full : 64 ≤ s.regs.bufcnt.val + absorbCount nb := Nat.le_of_not_lt fun short => changed (fits short)
      simp [State.loads, command, acc, full]
    rw [eq]
    exact { unchanged s with
      v := fun changed => .inl (loads fun same => changed same.1)
      w := fun changed => .inl (loads fun same => changed same.2.1)
      buf := fun _ => .inl absorbs
      bitlen := fun _ => .inr absorbs
      bufcnt := fun _ => .inr (.inl absorbs)
      seq := fun changed => .inl (loads fun same => changed same.2.2)
      start := fun idle busy => by
        have started : seq ≠ s.regs.seq := fun same => busy (same.trans idle)
        exact ⟨loads fun same => started same.2.2, position.resolve_left started, .inl ⟨nb, command⟩⟩ }

theorem finish (command : s.nextCommand = some .finish) : s.Writes s.regs.finish := by
  by_cases isOpen : s.regs.phase = .absorb
  · have loads : s.loads ≠ [] := by simp [State.loads, command, isOpen]
    rw [Regs.finish_of_open _ isOpen]
    exact { unchanged s with
      v := fun _ => .inl loads
      w := fun _ => .inl loads
      buf := fun _ => .inr (.inl command)
      bufcnt := fun _ => .inr (.inr command)
      pad2 := fun _ => .inr (.inl command)
      seq := fun _ => .inl loads
      start := fun _ _ => ⟨loads, rfl, .inr command⟩
      phase := fun _ => .inr (.inl command) }
  · rw [Regs.finish_of_closed _ isOpen]
    exact raiseError command nofun nofun

theorem execute {i : Instr} (command : s.nextCommand = some i) : s.Writes (s.regs.execute i) := by
  cases i with
  | nop => exact unchanged s
  | init => exact init command
  | absorb nb => exact absorb command
  | finish => exact finish command
  | reserved4to7 op => exact raiseError command nofun nofun
  | reserved8toF op => exact raiseError command nofun nofun

theorem microStep (move : s.nextMove = .sequencer) (busy : s.regs.seq ≠ .idle) : s.Writes s.regs.microStep := by
  have seq : ∀ u : Regs, u.seq ≠ s.regs.seq → s.loads ≠ [] ∨ (s.nextMove = .sequencer ∧ s.regs.seq ≠ .idle) :=
    fun _ _ => .inr ⟨move, busy⟩
  cases at_ : s.regs.seq with
  | idle => exact absurd at_ busy
  | sched k =>
    rw [Regs.microStep_of_sched at_]
    exact { unchanged s with
      w := fun _ => .inr ⟨move, k, at_⟩
      seq := seq _
      start := fun idle => absurd idle busy }
  | round i =>
    rw [Regs.microStep_of_round at_]
    exact { unchanged s with
      v := fun _ => .inr ⟨move, i, at_⟩
      seq := seq _
      start := fun idle => absurd idle busy }
  | ff =>
    rw [Regs.microStep_of_ff at_]
    exact { unchanged s with
      h := fun _ => .inr ⟨move, at_⟩
      seq := seq _
      start := fun idle => absurd idle busy }
  | pad2 =>
    have loads : s.loads ≠ [] := by simp [State.loads, State.nextCommand, move, at_]
    rw [Regs.microStep_of_pad2 at_]
    exact { unchanged s with
      v := fun _ => .inl loads
      w := fun _ => .inl loads
      buf := fun _ => .inr (.inr ⟨move, at_⟩)
      pad2 := fun _ => .inr (.inr ⟨move, at_⟩)
      seq := seq _
      start := fun idle => absurd idle busy }
  | ser =>
    rw [Regs.microStep_of_ser at_, Regs.serialize]
    generalize digestBytes s.regs.h = d
    exact { unchanged s with
      d := fun _ => .inr ⟨move, at_⟩
      seq := seq _
      start := fun idle => absurd idle busy
      phase := fun _ => .inr (.inr (.inr ⟨move, at_⟩)) }

end State.Writes

/-- Every step that is no reset writes only what its event may write. -/
theorem step_writes {s t : State} (stepped : step s = .next t) (noReset : s.nextMove ≠ .reset) : s.Writes t.regs := by
  rcases step_regs stepped with ⟨i, command, -, eq⟩ | eq | ⟨data, move, eq⟩ | ⟨move, busy, eq⟩ | ⟨reset, -⟩
  · exact eq ▸ .execute command
  · exact eq ▸ .unchanged s
  · exact eq ▸ .setDataIn move
  · exact eq ▸ .microStep move busy
  · exact absurd reset noReset

/-- Settles O43, by the writers of each event. -/
theorem eachRegisterHasItsWriters : Obligations.EachRegisterHasItsWriters := by
  intro s t stepped noReset
  obtain ⟨h, v, w, buf, d, bitlen, dataIn, bufcnt, pad2, seq, start, phase, lenerr, record⟩ := step_writes stepped noReset
  exact ⟨h, v, w, buf, d, bitlen, dataIn, bufcnt, pad2, seq, start, phase, lenerr, record⟩

section PhaseChange
variable {r : Regs}

/-- SER alone of the micro-steps changes PHASE (R106). -/
theorem Regs.microStep_phase (r : Regs) :
    r.microStep.phase = r.phase ∨ (r.seq = .ser ∧ r.microStep.phase = .done) := by
  cases at_ : r.seq with
  | idle => exact .inl (by rw [Regs.microStep_of_idle at_])
  | sched k => exact .inl (by rw [Regs.microStep_of_sched at_, Regs.sched])
  | round i => exact .inl (by rw [Regs.microStep_of_round at_, Regs.round])
  | ff => exact .inl (by rw [Regs.microStep_of_ff at_, Regs.feedForward])
  | pad2 => exact .inl (by rw [Regs.microStep_of_pad2 at_]; rfl)
  | ser => exact .inr ⟨rfl, by rw [Regs.microStep_of_ser at_, Regs.serialize]⟩

/-- Of the commands only INIT, FINISH in P_ABSORB and an overflowing ABSORB change PHASE (R66, R69, R104). -/
theorem Regs.execute_phase (r : Regs) (i : Instr) :
    (r.execute i).phase = r.phase ∨ (i = .init ∧ (r.execute i).phase = .absorb) ∨
    (i = .finish ∧ r.phase = .absorb ∧ (r.execute i).phase = .final) ∨
    (r.phase = .absorb ∧ (r.execute i).phase = .error ∧
      ∃ nb, i = .absorb nb ∧ 2 ^ 64 ≤ r.bitlen.toNat + 8 * absorbCount nb) := by
  cases i with
  | nop | reserved4to7 op | reserved8toF op => exact .inl rfl
  | init => exact .inr (.inl ⟨rfl, rfl⟩)
  | finish =>
    by_cases isOpen : r.phase = .absorb
    · exact .inr (.inr (.inl ⟨rfl, isOpen, by rw [Regs.execute, r.finish_of_open isOpen]⟩))
    · exact .inl (by rw [Regs.execute, r.finish_of_closed isOpen, Regs.raiseError_phase])
  | absorb nb =>
    rcases r.absorb_cases (absorbCount nb) with ⟨-, eq⟩ | ⟨isOpen, tooLong, eq⟩ | ⟨acc, -⟩
    · exact .inl (by rw [Regs.execute, eq, Regs.raiseError_phase])
    · exact .inr (.inr (.inr ⟨isOpen, by rw [Regs.execute, eq], nb, rfl, tooLong⟩))
    · obtain ⟨buf, v, w, seq, bufcnt, eq, -⟩ := Regs.absorb_frame_of_accepts (absorbCount_bounds nb).2 acc
      exact .inl (by rw [Regs.execute, eq])

end PhaseChange

/-- Settles O44, by the phase after each event. -/
theorem phaseChangesOnlyByItsEvents : Obligations.PhaseChangesOnlyByItsEvents := by
  intro s t stepped changed
  rcases step_regs stepped with ⟨i, command, -, eq⟩ | eq | ⟨data, -, eq⟩ | ⟨move, -, eq⟩ | ⟨reset, eq⟩ <;>
    rw [eq] at changed ⊢
  · rcases s.regs.execute_phase i with same | ⟨rfl, phase⟩ | ⟨rfl, isOpen, phase⟩ | ⟨isOpen, phase, nb, rfl, tooLong⟩
    · exact absurd same changed
    · exact .inr (.inl ⟨phase, command⟩)
    · exact .inr (.inr (.inl ⟨phase, isOpen, command⟩))
    · exact .inr (.inr (.inr (.inr ⟨phase, isOpen, nb, command, tooLong⟩)))
  · exact absurd rfl changed
  · exact absurd rfl changed
  · rcases s.regs.microStep_phase with same | ⟨at_, phase⟩
    · exact absurd same changed
    · exact .inr (.inr (.inr (.inl ⟨phase, move, at_⟩)))
  · exact .inl ⟨rfl, reset⟩

end Sys2Proof.Machine
end

section
/-! What the host's transactions do to the block, whatever the interleaving (20_memory.md R40, R49; 44_host_interface.md
R98, R99): the course in which each transaction waits for an idle block fixes the block at the end. -/

namespace Sys2Proof.Machine

section HostTurn
variable {s : State} {t : Txn} {rest : List Txn} {ts : List Turn}

/-- On the host's turn its oldest transaction, when it is no command, is performed at once, BUSY or not (R99). -/
theorem step_of_hostTurn (host : s.host = t :: rest) (turns : s.turns = .host :: ts) (command : t.command = none) :
    step s = .next (s.tick.dropTxn.access t) := by
  have event : s.hostEvent = some t :=
    State.hostEvent_eq_some.2 ⟨by simp [host], fun isCommand => absurd command isCommand⟩
  have move : s.nextMove = .host t := by simp [State.nextMove, turns, State.hostFirst, event]
  simp [step, move, State.make, State.perform, command]

/-- A transaction outside the window is an access the block does not answer (R40). -/
theorem State.access_of_outside (s : State) (outside : 0x80 ≤ t.off) : s.access t = s.answer .notDecoded := by
  simp [State.access, Txn.forThisBlock, outside]

theorem Txn.command_of_outside (outside : 0x80 ≤ t.off) : t.command = none :=
  Txn.command_of_not_accessOK (by simp [Txn.accessOK, outside])

end HostTurn

/-- Settles O34: such a transaction is no command, so the host's turn performs it, and it changes nothing of the block. -/
theorem outsideWindowIsNotForThisBlock : Obligations.OutsideWindowIsNotForThisBlock := by
  intro s t rest ts host turns outside
  rw [step_of_hostTurn host turns (Txn.command_of_outside outside), State.access_of_outside _ outside]
  simp [State.answer, State.dropTxn, State.tick, host, turns]

section Perform

/-- What a completed transaction does to the block alone: a command, a new DATA_IN, or nothing (R46, R101, R102). -/
def Regs.perform (r : Regs) : Txn → Regs
  | .write 0x00 .word word => r.execute (decode word)
  | .write 0x08 .word data => { r with dataIn := data }
  | _ => r

variable {t : Txn}

/-- A transaction that is no command changes DATA_IN alone, and to a value that does not depend on the block (R101). -/
theorem Regs.perform_of_not_command (command : t.command = none) :
    (∀ r : Regs, r.perform t = r) ∨ ∃ data, ∀ r : Regs, r.perform t = { r with dataIn := data } := by
  unfold Regs.perform
  split
  · simp at command
  · exact .inr ⟨_, fun _ => rfl⟩
  · exact .inl fun _ => rfl

theorem State.access_regs_eq_perform (s : State) (command : t.command = none) :
    (s.access t).regs = s.regs.perform t := by
  unfold Regs.perform
  split
  · simp at command
  · simp [State.access, Txn.forThisBlock, Txn.accessOK, Txn.off, Txn.size, AccessSize.bytes, regAt, Regs.writeReg]
  · next other => exact (s.access_regs t).resolve_right fun ⟨data, write, _⟩ => other data write

/-- No micro-step reads or writes DATA_IN (R106). -/
theorem Regs.microStep_setDataIn (r : Regs) (data : Word) :
    ({ r with dataIn := data } : Regs).microStep = { r.microStep with dataIn := data } := by
  obtain ⟨h, v, w, buf, d, bitlen, bufcnt, phase, seq, pad2, lenerr, cmderr, ecause, dataIn⟩ := r
  cases seq <;> rfl

/-- The one commutation behind the interleaving: a transaction that is no command and a micro-step. -/
theorem Regs.perform_microStep (r : Regs) (command : t.command = none) :
    (r.perform t).microStep = r.microStep.perform t := by
  rcases Regs.perform_of_not_command command with same | ⟨data, written⟩
  · simp only [same]
  · simp only [written, Regs.microStep_setDataIn]

theorem Regs.perform_seq (r : Regs) (command : t.command = none) : (r.perform t).seq = r.seq := by
  rcases Regs.perform_of_not_command command with same | ⟨data, written⟩
  · rw [same]
  · rw [written]

end Perform

/-- The course of the block in which each transaction waits until the sequencer is idle, to the block `u` it ends in. -/
inductive Regs.Settles : Regs → List Txn → Regs → Prop
  | done {r : Regs} (idle : r.seq = .idle) : Settles r [] r
  | micro {r u : Regs} {host : List Txn} (busy : r.seq ≠ .idle) (later : Settles r.microStep host u) : Settles r host u
  | txn {r u : Regs} {t : Txn} {host : List Txn} (idle : r.seq = .idle) (later : Settles (r.perform t) host u) :
      Settles r (t :: host) u

namespace Regs.Settles

variable {r u v : Regs} {host : List Txn}

/-- The course is fixed: SEQ says whether a micro-step or the host's oldest transaction comes next. -/
theorem unique (left : r.Settles host u) (right : r.Settles host v) : u = v := by
  induction left with
  | done idle =>
    cases right with
    | done _ => rfl
    | micro busy _ => exact absurd idle busy
  | micro busy _ ih =>
    cases right with
    | done idle => exact absurd idle busy
    | micro _ later => exact ih later
    | txn idle _ => exact absurd idle busy
  | txn idle _ ih =>
    cases right with
    | micro busy _ => exact absurd idle busy
    | txn _ later => exact ih later

/-- A transaction that is no command may as well wait: it commutes with each micro-step left (R99). -/
theorem delay {t : Txn} (command : t.command = none) (early : (r.perform t).Settles host u) : r.Settles (t :: host) u := by
  generalize performed : r.perform t = r' at early
  induction early generalizing r with
  | done idle => subst performed; exact .txn (r.perform_seq command ▸ idle) (.done idle)
  | txn idle later _ => subst performed; exact .txn (r.perform_seq command ▸ idle) (.txn idle later)
  | micro busy _ ih =>
    subst performed
    exact .micro (r.perform_seq command ▸ busy) (ih (r.perform_microStep command).symm)

end Regs.Settles

section Runs
variable {s t u : State}

theorem State.nextMove_ne_reset (noReset : ∀ turn ∈ s.turns, turn ≠ .reset) : s.nextMove ≠ .reset := by
  intro reset
  rcases s.nextMove_cases with ⟨_, move, _⟩ | ⟨move, _⟩ | ⟨_, head⟩ | ⟨move, _⟩
  · simp [move] at reset
  · simp [move] at reset
  · exact noReset .reset (List.mem_of_mem_head? head) rfl
  · simp [move] at reset

/-- Every step spends the turn. -/
theorem step_turns (stepped : step s = .next t) : t.turns = s.turns.tail := by
  rcases step_cases s with ⟨txn, word, -, -, -, -, next⟩ | ⟨txn, -, -, -, next⟩ | ⟨-, -, next⟩ | ⟨-, next⟩ |
    ⟨-, -, next⟩ <;> cases stepped.symm.trans next
  · rfl
  · exact (s.tick.dropTxn.access_frame txn).2.1
  · rfl
  · rfl
  · rfl

/-- The block and the host's list after a step: a transaction leaves the list and is performed, and a command only on an
idle block; or the sequencer moves; or nothing changes. -/
theorem step_block (stepped : step s = .next t) (noReset : s.nextMove ≠ .reset) :
    (∃ txn, s.host = txn :: t.host ∧ t.regs = s.regs.perform txn ∧ (s.regs.seq = .idle ∨ txn.command = none)) ∨
    (t.host = s.host ∧ t.regs = s.regs.microStep ∧ s.regs.seq ≠ .idle) ∨
    (t.host = s.host ∧ t.regs = s.regs) := by
  rcases step_cases s with ⟨txn, word, -, command, head, idle, next⟩ | ⟨txn, -, command, head, next⟩ |
    ⟨-, busy, next⟩ | ⟨reset, -⟩ | ⟨-, -, next⟩
  · cases stepped.symm.trans next
    refine .inl ⟨txn, List.eq_cons_of_mem_head? head, ?_, .inl idle⟩
    rw [Txn.command_eq_some.1 command]
    rfl
  · cases stepped.symm.trans next
    refine .inl ⟨txn, ?_, State.access_regs_eq_perform _ command, .inr command⟩
    rw [(s.tick.dropTxn.access_frame txn).1]
    exact List.eq_cons_of_mem_head? head
  · cases stepped.symm.trans next
    exact .inr (.inl ⟨rfl, rfl, busy⟩)
  · exact absurd reset noReset
  · cases stepped.symm.trans next
    exact .inr (.inr ⟨rfl, rfl⟩)

/-- A step never stops (R108). -/
theorem step_eq_next (s : State) : ∃ t, step s = .next t := by
  rcases step_cases s with ⟨_, _, -, -, -, -, next⟩ | ⟨_, -, -, -, next⟩ | ⟨-, -, next⟩ | ⟨-, next⟩ |
    ⟨-, -, next⟩ <;> exact ⟨_, next⟩

theorem coreRun_succ (M : Host.Core) {s t : M.State} (k : Nat) (stepped : M.step s = .next t) :
    M.run (k + 1) s = M.run k t := by
  rw [Host.Core.run, stepped]

/-- A run that goes on is a step and then the rest of the run. -/
theorem run_succ (k : Nat) (stepped : step s = .next t) : run (k + 1) s = run k t :=
  coreRun_succ Sys2Proof.core k stepped

/-- Every run without reset that ends idle, with no transaction left, ends where the waiting course does. -/
theorem run_settles {k : Nat} (ran : run k s = .next u) (noReset : ∀ turn ∈ s.turns, turn ≠ .reset)
    (completed : u.host = []) (idle : u.regs.seq = .idle) : s.regs.Settles s.host u.regs := by
  induction k generalizing s with
  | zero =>
    cases ran
    exact completed ▸ .done idle
  | succ k ih =>
    obtain ⟨t, stepped⟩ := step_eq_next s
    have later : t.regs.Settles t.host u.regs :=
      ih (run_succ k stepped ▸ ran) fun turn mem => noReset turn (List.mem_of_mem_tail (step_turns stepped ▸ mem))
    rcases step_block stepped (State.nextMove_ne_reset noReset) with
      ⟨txn, host, regs, waited | command⟩ | ⟨host, regs, busy⟩ | ⟨host, regs⟩
    · exact host ▸ .txn waited (regs ▸ later)
    · exact host ▸ .delay command (regs ▸ later)
    · exact .micro busy (host ▸ regs ▸ later)
    · exact host ▸ regs ▸ later

end Runs

/-- Settles O52: both runs end where the one waiting course from their common block and host's list does. -/
theorem interleavingDoesNotMatter : Obligations.InterleavingDoesNotMatter := by
  intro s u v ts us k m noReset noReset' ran ran' completed completed' idle idle'
  have left := run_settles ran noReset completed idle
  have right := run_settles ran' noReset' completed' idle'
  exact left.unique right

end Sys2Proof.Machine
end

section
/-! The command word and its decoder (30_encoding.md R54 to R58): the fields as numbers, what each value of OP decodes to, and
the words of one command. -/

namespace Sys2Proof

section Fields
variable (word : Word) (nb : BitVec 2) (op : BitVec 4)

theorem toNat_opField : (opField word).toNat = word.toNat % 2 ^ 4 := by simp [opField]

theorem toNat_nbField : (nbField word).toNat = word.toNat / 2 ^ 4 % 2 ^ 2 := by
  rw [nbField, BitVec.extractLsb'_toNat, Nat.shiftRight_eq_div_pow]

theorem toNat_commandWord : (commandWord nb op).toNat = nb.toNat * 2 ^ 4 + op.toNat := by
  rw [commandWord, Machine.toNat_append_eq_add, Machine.toNat_append_eq_add, BitVec.toNat_zero, Nat.zero_mul, Nat.zero_add]

/-- A command word holds its two fields apart. -/
theorem commandWord_inj {nb nb' : BitVec 2} {op op' : BitVec 4} :
    commandWord nb op = commandWord nb' op' ↔ nb = nb' ∧ op = op' := by
  have opLt := op.isLt
  have opLt' := op'.isLt
  simp only [← BitVec.toNat_inj, toNat_commandWord]
  omega

/-- A word's bits 3:0 alone. -/
theorem and_opMask : word &&& 0x0000000F#32 = commandWord 0 (opField word) := by
  apply BitVec.eq_of_toNat_eq
  rw [toNat_commandWord, toNat_opField, BitVec.toNat_and]
  exact (Nat.and_two_pow_sub_one_eq_mod word.toNat 4).trans (Nat.zero_add _).symm

/-- A word's bits 5:0 alone. -/
theorem and_opNbMask : word &&& 0x0000003F#32 = commandWord (nbField word) (opField word) := by
  apply BitVec.eq_of_toNat_eq
  rw [toNat_commandWord, toNat_nbField, toNat_opField, BitVec.toNat_and]
  have sixBits : word.toNat &&& 63 = word.toNat % 64 := Nat.and_two_pow_sub_one_eq_mod word.toNat 6
  change word.toNat &&& 63 = _
  omega

end Fields

section Rows
variable {word : Word}

theorem decode_of_nop (op : opField word = 0x0#4) : decode word = .nop := by simp [decode, op]
theorem decode_of_init (op : opField word = 0x1#4) : decode word = .init := by simp [decode, op]
theorem decode_of_absorb (op : opField word = 0x2#4) : decode word = .absorb (nbField word) := by simp [decode, op]
theorem decode_of_finish (op : opField word = 0x3#4) : decode word = .finish := by simp [decode, op]

/-- From OP = 4 on, the first four rows are past. -/
theorem decode_of_reserved (reserved : 4 ≤ (opField word).toNat) :
    decode word = if (opField word).toNat ≤ 7 then .reserved4to7 (opField word) else .reserved8toF (opField word) := by
  have past : ∀ op : BitVec 4, op.toNat < 4 → opField word ≠ op := by
    rintro op low rfl
    omega
  rw [decode, if_neg (past _ (by decide)), if_neg (past _ (by decide)), if_neg (past _ (by decide)),
    if_neg (past _ (by decide))]

theorem decode_of_reserved4to7 (low : 4 ≤ (opField word).toNat) (high : (opField word).toNat ≤ 7) :
    decode word = .reserved4to7 (opField word) := by
  rw [decode_of_reserved low, if_pos high]

theorem decode_of_reserved8toF (low : 8 ≤ (opField word).toNat) : decode word = .reserved8toF (opField word) := by
  rw [decode_of_reserved (by omega), if_neg (by omega)]

/-- The rows of R56 leave no value of OP out. -/
theorem op_cases (op : BitVec 4) :
    op = 0x0#4 ∨ op = 0x1#4 ∨ op = 0x2#4 ∨ op = 0x3#4 ∨ (4 ≤ op.toNat ∧ op.toNat ≤ 7) ∨ 8 ≤ op.toNat := by
  simp only [← BitVec.toNat_inj, BitVec.toNat_ofNat]
  omega

/-- The command a word decodes to has an encoding, and it is the word with the ignored bits cleared (R58). -/
theorem decode_spec (word : Word) :
    WellFormed (decode word) = true ∧ word &&& usedBits (decode word) = encode (decode word) := by
  rcases op_cases (opField word) with op | op | op | op | ⟨low, high⟩ | low
  · rw [decode_of_nop op, usedBits, encode, and_opMask, op]
    exact ⟨rfl, rfl⟩
  · rw [decode_of_init op, usedBits, encode, and_opMask, op]
    exact ⟨rfl, rfl⟩
  · rw [decode_of_absorb op, usedBits, encode, and_opNbMask, op]
    exact ⟨rfl, rfl⟩
  · rw [decode_of_finish op, usedBits, encode, and_opMask, op]
    exact ⟨rfl, rfl⟩
  · rw [decode_of_reserved4to7 low high, usedBits, encode, and_opMask]
    exact ⟨decide_eq_true ⟨low, high⟩, rfl⟩
  · rw [decode_of_reserved8toF low, usedBits, encode, and_opMask]
    exact ⟨decide_eq_true low, rfl⟩

theorem opField_of_and_opMask {op : BitVec 4} (used : word &&& 0x0000000F#32 = commandWord 0 op) : opField word = op := by
  rw [and_opMask, commandWord_inj] at used
  exact used.2

/-- A word whose used bits are a command's encoding decodes to that command. -/
theorem decode_of_and_usedBits {i : Instr} (wf : WellFormed i = true) (used : word &&& usedBits i = encode i) :
    decode word = i := by
  cases i with
  | nop => exact decode_of_nop (opField_of_and_opMask used)
  | init => exact decode_of_init (opField_of_and_opMask used)
  | absorb nb =>
    rw [usedBits, encode, and_opNbMask, commandWord_inj] at used
    rw [decode_of_absorb used.2, used.1]
  | finish => exact decode_of_finish (opField_of_and_opMask used)
  | reserved4to7 op =>
    obtain rfl := opField_of_and_opMask used
    have ⟨low, high⟩ := of_decide_eq_true wf
    exact decode_of_reserved4to7 low high
  | reserved8toF op =>
    obtain rfl := opField_of_and_opMask used
    exact decode_of_reserved8toF (of_decide_eq_true wf)

end Rows

/-- Settles O2, one direction by the rows of OP, the other by the commands. -/
theorem decodeReadsExactlyTheUsedBits : Obligations.DecodeReadsExactlyTheUsedBits := by
  intro i word wf
  constructor
  · rintro rfl
    exact (decode_spec word).2
  · exact decode_of_and_usedBits wf

/-- `Laws.EncodeFitsRow` for every command. -/
theorem encodeFitsRow (i : Instr) : Laws.EncodeFitsRow.Statement i := by
  cases i with
  | nop => exact Laws.EncodeFitsRow.nop
  | init => exact Laws.EncodeFitsRow.init
  | absorb nb => exact Laws.EncodeFitsRow.absorb nb
  | finish => exact Laws.EncodeFitsRow.finish
  | reserved4to7 op => exact Laws.EncodeFitsRow.reserved4to7 op
  | reserved8toF op => exact Laws.EncodeFitsRow.reserved8toF op

/-- Decoding undoes encoding (R62). -/
theorem decode_encode {i : Instr} (wf : WellFormed i = true) : decode (encode i) = i :=
  decode_of_and_usedBits wf (encodeFitsRow i wf).2

/-- Every command uses at least the OP field. -/
theorem usedBits_cases (i : Instr) : usedBits i = 0x0000000F#32 ∨ usedBits i = 0x0000003F#32 := by
  cases i <;> simp [usedBits]

/-- A row of the table looks at used bits only, whatever the command. -/
theorem OpcodeRow.fits_and_usedBits {row : OpcodeRow} (mem : row ∈ opcodeTable) (i : Instr) (word : Word) :
    row.fits (word &&& usedBits i) = row.fits word := by
  have inOp : ∀ row ∈ opcodeTable, 0x0000000F#32 &&& row.mask = row.mask ∧ 0x0000003F#32 &&& row.mask = row.mask := by
    decide
  have inUsed : usedBits i &&& row.mask = row.mask := by
    rcases usedBits_cases i with used | used <;> rw [used]
    · exact (inOp row mem).1
    · exact (inOp row mem).2
  rw [OpcodeRow.fits, OpcodeRow.fits, BitVec.and_assoc, inUsed]

/-- Settles O3: the rows see of a word only the encoding of its command, which fits that command's row and no other. -/
theorem everyWordFitsOneOpcodeRow : Obligations.EveryWordFitsOneOpcodeRow := by
  intro word
  have ⟨wf, used⟩ := decode_spec word
  have sameRows : (opcodeTable.filter fun row => row.fits word) =
      opcodeTable.filter fun row => row.fits (encode (decode word)) :=
    List.filter_congr fun row mem => by rw [← used, OpcodeRow.fits_and_usedBits mem]
  exact ⟨sameRows ▸ (encodeFitsRow (decode word) wf).1, wf⟩

/-- Settles O1, by evaluating the decoder on the twelve words. -/
theorem sampleWordsDecode : Obligations.SampleWordsDecode := by
  unfold Obligations.SampleWordsDecode
  decide

end Sys2Proof
end

section
/-! The host notation (30_encoding.md R61, R62): its registers, and a command mnemonic on an idle block. -/

namespace Sys2Proof.Machine

/-- Every register lies at its own offset of the map, aligned and in the window (R29). -/
theorem offsetOf_spec (reg : Reg) : regAt (HostNotation.offsetOf reg) = reg ∧ HostNotation.offsetOf reg % 4 = 0 ∧
    HostNotation.offsetOf reg < 0x80 := by
  cases reg with
  | digest k => exact ⟨regAt_digest k, by simp only [HostNotation.offsetOf]; omega⟩
  | hstate k => exact ⟨regAt_hstate k, by simp only [HostNotation.offsetOf]; omega⟩
  | ctrl | status | dataIn | bitlenLo | bitlenHi | reserved => decide

/-- A mnemonic is the command of its encoded word (R62). -/
theorem command_notation (i : Instr) : (HostNotation.command i).command = some (encode i) :=
  Txn.command_write_ctrl (encode i)

/-- On the host's turn an idle block performs the command that is the host's oldest transaction (R101, R102). -/
theorem step_of_command {s : State} {t : Txn} {rest : List Txn} {ts : List Turn} {word : Word} (host : s.host = t :: rest)
    (turns : s.turns = .host :: ts) (idle : s.regs.seq = .idle) (command : t.command = some word) :
    step s = exec (decode word) (s.tick.dropTxn.answer .okay) := by
  have event : s.hostEvent = some t := State.hostEvent_eq_some.2 ⟨by simp [host], fun _ => idle⟩
  have move : s.nextMove = .host t := by simp [State.nextMove, turns, State.hostFirst, event]
  simp [step, move, State.make, State.perform, command]

/-- Settles O4: a mnemonic writes its encoding to CTRL, and decoding undoes encoding. -/
theorem notationCommandRunsItsCommand : Obligations.NotationCommandRunsItsCommand := by
  refine ⟨offsetOf_spec, fun i s rest ts wf idle host turns => ?_⟩
  rw [step_of_command host turns idle (command_notation i), decode_encode wf]
  simp [State.answer, State.dropTxn, State.tick, host, turns]

end Sys2Proof.Machine
end

section
/-! The padder's buffer: what appended bytes leave in BUF, whether or not they fill the block (40_padder.md R66, R68). -/

namespace Sys2Proof.Machine

/-- BUF with `bytes` written at positions `c`, `c + 1`, and so on; what would fall beyond the end is left out. -/
def overwrite (buf : Vector Byte 64) (c : Nat) (bytes : List Byte) : Vector Byte 64 :=
  Vector.ofFn fun p : Fin 64 => if p.val < c then buf[p.val] else bytes.getD (p.val - c) buf[p.val]

section Overwrite
variable {buf : Vector Byte 64} {c : Nat} {bytes : List Byte} {p : Nat} (lt : p < 64)

theorem overwrite_before (before : p < c) : (overwrite buf c bytes)[p] = buf[p] := by simp [overwrite, before]

theorem overwrite_at {b : Byte} (from_ : c ≤ p) (byte : bytes[p - c]? = some b) : (overwrite buf c bytes)[p] = b := by
  simp [overwrite, Nat.not_lt.2 from_, byte]

theorem overwrite_after (after : c + bytes.length ≤ p) : (overwrite buf c bytes)[p] = buf[p] := by
  have notBefore : ¬ p < c := by omega
  simp [overwrite, notBefore, List.getElem?_eq_none (show bytes.length ≤ p - c by omega)]

theorem overwrite_nil : overwrite buf c [] = buf := by ext p lt; simp [overwrite]

theorem overwrite_end : overwrite buf 64 bytes = buf := by
  exact Vector.ext fun p lt => overwrite_before lt lt

/-- The first byte may be written on its own (R66 line 4). -/
theorem overwrite_cons {b : Byte} (inside : c < 64) :
    overwrite buf c (b :: bytes) = overwrite (buf.set c b) (c + 1) bytes := by
  refine Vector.ext fun p lt => ?_
  rcases Nat.lt_trichotomy p c with before | rfl | after
  · rw [overwrite_before lt before, overwrite_before lt (by omega), Vector.getElem_set_ne _ _ (by omega)]
  · rw [overwrite_at (b := b) lt (Nat.le_refl p) (by simp), overwrite_before lt (by omega), Vector.getElem_set_self]
  · have shift : p - c = p - (c + 1) + 1 := by omega
    simp [overwrite, Nat.not_lt_of_gt after, Nat.not_le.2 after, shift, Vector.getElem_set_ne _ _ (Nat.ne_of_lt after)]

/-- The bytes written follow the bytes below `c`, up to the end of BUF. -/
theorem take_overwrite (inside : c ≤ 64) :
    (overwrite buf c bytes).toList.take (c + bytes.length) = buf.toList.take c ++ bytes.take (64 - c) := by
  refine List.ext_getElem (by simp; omega) fun p left right => ?_
  simp only [List.length_take, Vector.length_toList] at left
  by_cases before : p < c
  · rw [List.getElem_append_left (by simp; omega)]
    simp [overwrite_before (show p < 64 by omega) before]
  · rw [List.getElem_append_right (by simp; omega)]
    have byte : bytes[p - c]? = some bytes[p - c] := List.getElem?_eq_getElem (by omega)
    simp [overwrite_at (show p < 64 by omega) (Nat.not_lt.1 before) byte, Nat.min_eq_left inside]

end Overwrite

section AppendedBytes
variable {r : Regs} {bytes : List Byte}

theorem Regs.bufcnt_succ (notLast : r.bufcnt ≠ 63) : (r.bufcnt + 1).val = r.bufcnt.val + 1 := by
  rw [Fin.val_add]
  simp
  omega

/-- Bytes that do not fill the block stand from BUFCNT on, and BUFCNT counts them; no block is loaded (R66). -/
theorem Regs.appendBytes_eq_of_fits (fits : r.bufcnt.val + bytes.length < 64) :
    bytes.foldl Regs.appendByte r = { r with
      buf := overwrite r.buf r.bufcnt.val bytes, bufcnt := ⟨r.bufcnt.val + bytes.length, fits⟩ } := by
  induction bytes generalizing r with
  | nil => simp [overwrite_nil]
  | cons b bytes ih =>
    rw [List.length_cons] at fits
    have notLast : r.bufcnt ≠ 63 := fun last => by simp [last] at fits; omega
    have count := Regs.bufcnt_succ notLast
    rw [List.foldl_cons, r.appendByte_of_lt b notLast, ih (by simp only [count]; omega)]
    simp [count, overwrite_cons r.bufcnt.isLt, Nat.add_comm 1, Nat.add_assoc]

/-- The byte that fills the block loads it, and the bytes left over go to the start of BUF (R66 lines 6 to 8, R68). -/
theorem Regs.appendBytes_eq_of_fills (fills : 64 ≤ r.bufcnt.val + bytes.length)
    (onlyOne : r.bufcnt.val + bytes.length - 64 < 64) :
    bytes.foldl Regs.appendByte r =
      { ({ r with buf := overwrite r.buf r.bufcnt.val bytes } : Regs).loadBlock with
        buf := overwrite (overwrite r.buf r.bufcnt.val bytes) 0 (bytes.drop (64 - r.bufcnt.val))
        bufcnt := ⟨r.bufcnt.val + bytes.length - 64, onlyOne⟩ } := by
  induction bytes generalizing r with
  | nil => simp at fills; omega
  | cons b bytes ih =>
    rw [List.length_cons] at fills onlyOne
    rw [List.foldl_cons]
    by_cases last : r.bufcnt = 63
    · rw [r.appendByte_of_last b last, Regs.appendBytes_eq_of_fits (by simp; omega)]
      simp [last, overwrite_cons, overwrite_end]
      omega
    · have count := Regs.bufcnt_succ last
      have drop : 64 - r.bufcnt.val = 64 - (r.bufcnt.val + 1) + 1 := by omega
      rw [r.appendByte_of_lt b last, ih (by simp only [count]; omega) (by simp only [count]; omega)]
      simp [count, overwrite_cons r.bufcnt.isLt, drop]
      exact ⟨rfl, by omega⟩

end AppendedBytes

/-- The lanes as they stand in BUF from position `c` on (R42). -/
theorem overwrite_lane (buf : Vector Byte 64) {c n : Nat} (dataIn : Word) {j : Fin 4} (lt : j.val < n)
    (inside : c + j.val < 64) : (overwrite buf c (lanes dataIn n))[c + j.val]? = some (byteOf dataIn j) := by
  rw [Vector.getElem?_eq_getElem inside, overwrite_at inside (Nat.le_add_right c j.val)]
  rw [Nat.add_sub_cancel_left, lanes_getElem? dataIn j lt]

section AcceptedAbsorb
variable {r : Regs} {n : Nat}

theorem Regs.absorb_eq_of_fits (le : n ≤ 4) (acc : r.accepts n = true) (fits : r.bufcnt.val + n < 64) :
    r.absorb n = { r with
      buf := overwrite r.buf r.bufcnt.val (lanes r.dataIn n)
      bufcnt := ⟨r.bufcnt.val + n, fits⟩
      bitlen := r.bitlen + BitVec.ofNat 64 (8 * n) } := by
  have length := lanes_length r.dataIn le
  rw [r.absorb_of_accepts n acc, Regs.appendBytes_eq_of_fits (by rw [length]; exact fits)]
  simp only [length]

theorem Regs.completedBlock_eq (le : n ≤ 4) (fills : 64 ≤ r.bufcnt.val + n) :
    r.completedBlock n = overwrite r.buf r.bufcnt.val (lanes r.dataIn n) := by
  refine Vector.ext fun p lt => ?_
  rcases Nat.lt_or_ge p r.bufcnt.val with before | from_
  · rw [overwrite_before lt before]
    simp [Regs.completedBlock, show (⟨p, lt⟩ : Fin 64) < r.bufcnt from before]
  · have byte := List.getElem?_eq_getElem (l := lanes r.dataIn n) (i := p - r.bufcnt.val)
      (by rw [lanes_length r.dataIn le]; omega)
    rw [overwrite_at lt from_ byte]
    simp [Regs.completedBlock, show r.bufcnt ≤ (⟨p, lt⟩ : Fin 64) from from_, byte]

theorem Regs.absorb_eq_of_fills (le : n ≤ 4) (acc : r.accepts n = true) (fills : 64 ≤ r.bufcnt.val + n) :
    r.absorb n = { ({ r with buf := r.completedBlock n } : Regs).loadBlock with
      buf := overwrite (r.completedBlock n) 0 ((lanes r.dataIn n).drop (64 - r.bufcnt.val))
      bufcnt := ⟨r.bufcnt.val + n - 64, by omega⟩
      bitlen := r.bitlen + BitVec.ofNat 64 (8 * n) } := by
  have length := lanes_length r.dataIn le
  rw [r.absorb_of_accepts n acc, Regs.appendBytes_eq_of_fills (by rw [length]; exact fills) (by omega),
    Regs.completedBlock_eq le fills]
  simp only [length]

end AcceptedAbsorb

/-- Settles O17: the lanes overwrite BUF from BUFCNT on. -/
theorem absorbAppendsWithinBlock : Obligations.AbsorbAppendsWithinBlock := by
  rintro s nb n c count rfl isOpen length fits
  obtain rfl : n = absorbCount nb := count
  have le := (absorbCount_bounds nb).2
  have acc := (s.regs.accepts_iff _).2 ⟨isOpen, length⟩
  have lanesLength := lanes_length s.regs.dataIn le
  refine ⟨_, exec_eq _ s, ?_⟩
  simp only [Regs.execute, State.onRegs, Regs.absorb_eq_of_fits le acc fits]
  refine ⟨trivial, trivial, BitLen.add_of_fits _ _ length, fun j lt => ?_, fun p outside => ?_⟩
  · exact overwrite_lane _ _ lt (by omega)
  · rcases outside with before | after
    · exact overwrite_before p.isLt before
    · exact overwrite_after p.isLt (by rw [lanesLength]; exact after)

/-- Settles O18: the completed block is loaded, and the lanes left over overwrite it from the start. -/
theorem absorbCompletesBlock : Obligations.AbsorbCompletesBlock := by
  rintro s nb n c count rfl isOpen length fills
  obtain rfl : n = absorbCount nb := count
  have le := (absorbCount_bounds nb).2
  have acc := (s.regs.accepts_iff _).2 ⟨isOpen, length⟩
  have lanesLength := lanes_length s.regs.dataIn le
  refine ⟨by omega, _, s.regs.completedBlock (absorbCount nb), exec_eq _ s, ?_, ?_, ?_⟩
  · intro p before
    rw [Regs.completedBlock_eq le fills]
    exact overwrite_before p.isLt before
  · intro j inside
    rw [Regs.completedBlock_eq le fills]
    exact overwrite_lane _ _ (by omega) inside
  simp only [Regs.execute, State.onRegs, Regs.absorb_eq_of_fills le acc fills]
  refine ⟨rfl, fun j => Regs.loadBlock_w_low _ j, fun k => Regs.loadBlock_w_high _ ⟨k.val + 16, by omega⟩ (by simp),
    trivial, BitLen.add_of_fits _ _ length, fun j lt leftOver => ?_, fun p after => ?_⟩
  · have lane : s.regs.bufcnt.val + j.val - 64 < 64 := by omega
    rw [Vector.getElem?_eq_getElem lane, overwrite_at lane (Nat.zero_le _)]
    rw [List.getElem?_drop, show 64 - s.regs.bufcnt.val + (s.regs.bufcnt.val + j.val - 64 - 0) = j.val by omega,
      lanes_getElem? s.regs.dataIn j lt]
  · exact overwrite_after p.isLt (by simp [lanesLength]; omega)

end Sys2Proof.Machine
end

section
/-! What the padder rejects, and the blocks that FINISH and PAD2 build (40_padder.md R66, R67, R69, R70). -/

namespace Sys2Proof.Machine

/-- An error that is not the length overflow records itself in CMDERR and ECAUSE alone (R110). -/
theorem Regs.raiseError_of_command (r : Regs) {c : Cause} (notLength : c ≠ .lenOverflow) :
    r.raiseError c = { r with cmderr := true, ecause := if r.ecause = .none then c else r.ecause } := by
  simp [Regs.raiseError, notLength]

section RejectedCommand
variable {s : State} {i : Instr} {c : Cause}
  (rejected : s.regs.execute i = s.regs.raiseError c) (notLength : c ≠ .lenOverflow)
include rejected notLength

/-- A rejected command records its error and does nothing else (R109, R110). -/
theorem exec_of_rejected : exec i s = .next { s with regs := { s.regs with
    cmderr := true, ecause := if s.regs.ecause = .none then c else s.regs.ecause } } := by
  rw [exec_eq]
  simp only [State.onRegs, rejected, s.regs.raiseError_of_command notLength]

/-- Once a cause is recorded, a rejected command sets CMDERR alone (R110). -/
theorem exec_of_rejected_again (recorded : s.regs.ecause ≠ .none) :
    exec i s = .next { s with regs := { s.regs with cmderr := true } } := by
  rw [exec_of_rejected rejected notLength, if_neg recorded]

end RejectedCommand

/-- Settles O15: the phase is checked before anything else. -/
theorem absorbWithoutTransactionIsRejected : Obligations.AbsorbWithoutTransactionIsRejected := by
  intro s nb closed
  exact exec_of_rejected (s.regs.absorb_of_closed _ closed) nofun

/-- Settles O16: the overflow ends the transaction and records its cause, so every later error sets CMDERR alone. -/
theorem absorbOverflowIsRejectedWhole : Obligations.AbsorbOverflowIsRejectedWhole := by
  intro s nb isOpen tooLong
  have overflow : s.regs.execute (.absorb nb) = { s.regs.raiseError .lenOverflow with phase := .error } :=
    s.regs.absorb_of_overflow (absorbCount nb) isOpen tooLong
  refine ⟨s.onRegs fun r => r.execute (.absorb nb), exec_eq _ s, ?_, ?_⟩
  · simp [State.onRegs, overflow, Regs.raiseError]
  have closed : (s.onRegs fun r => r.execute (.absorb nb)).regs.phase ≠ .absorb := by simp [overflow]
  have recorded : (s.onRegs fun r => r.execute (.absorb nb)).regs.ecause ≠ .none := by
    by_cases first : s.regs.ecause = .none <;> simp [overflow, first]
  generalize (s.onRegs fun r => r.execute (.absorb nb)) = t at closed recorded ⊢
  exact ⟨fun next => exec_of_rejected_again (t.regs.absorb_of_closed _ closed) nofun recorded,
    exec_of_rejected_again (t.regs.finish_of_closed closed) nofun recorded⟩

/-- Settles O19, by the two outcomes of FINISH and the bytes of the block it builds. -/
theorem finishPadsAndLoads : Obligations.FinishPadsAndLoads := by
  refine ⟨fun s closed => ?_, ?_⟩
  · exact exec_of_rejected (s.regs.finish_of_closed closed) nofun
  · rintro s r isOpen rfl
    refine ⟨_, exec_eq _ s, ?_⟩
    simp only [Regs.execute, State.onRegs, s.regs.finish_of_open isOpen]
    refine ⟨rfl, fun p lt => finalBlock_message _ _ _ p lt, ?_,
      fun fits => ⟨fun p gt low => finalBlock_zero _ _ _ p gt (.inl low), finalBlock_length _ _ _ fits⟩,
      fun full p gt => finalBlock_zero _ _ _ p gt (.inr full), fun j => Regs.loadBlock_w_low _ j,
      fun k => Regs.loadBlock_w_high _ ⟨k.val + 16, by omega⟩ (by simp)⟩
    rw [Vector.getElem?_eq_getElem s.regs.bufcnt.isLt]
    exact congrArg some (finalBlock_marker ..)

/-- Settles O25, by the bytes of the block PAD2 builds. -/
theorem padTwoLoadsLengthBlock : Obligations.PadTwoLoadsLengthBlock := by
  intro r at_
  rw [Regs.microStep_of_pad2 at_]
  exact ⟨fun p low => lengthBlock_zero r.bitlen p low, lengthBlock_length r.bitlen, fun j => Regs.loadBlock_w_low _ j,
    fun k => Regs.loadBlock_w_high _ ⟨k.val + 16, by omega⟩ (by simp), rfl⟩

end Sys2Proof.Machine
end

section
/-! The padded message (40_padder.md R64, R65). -/

namespace Sys2Proof.Machine.Algorithm

theorem length_pad (m : List Byte) : (pad m).length = m.length + 9 + zeroCount m.length := by
  simp [pad]
  omega

theorem length_pad_eq_blocks (m : List Byte) : (pad m).length = 64 * blockCount m.length := by
  rw [length_pad, zeroCount, blockCount]
  omega

/-- Settles O10: each part is arithmetic on the length modulo 64. -/
theorem paddedLengthIsWholeBlocks : Obligations.PaddedLengthIsWholeBlocks := by
  intro m
  refine ⟨length_pad_eq_blocks m, length_pad m, ?_⟩
  generalize m.length = len
  unfold zeroCount blockCount
  refine ⟨by omega, by omega, fun fewer less => by omega, fun low => by omega, fun high => by omega⟩

end Sys2Proof.Machine.Algorithm
end

section
/-! The blocks of a transaction are those of its padded message (40_padder.md R71, R72): an invariant that every step keeps. -/

namespace Sys2Proof.Machine

namespace Algorithm

section Blocks
variable (block : Vector Byte 64) (blocks : List (Vector Byte 64)) (rest : List Byte)

theorem blocks64_append : blocks64 (block.toList ++ rest) = block :: blocks64 rest := by
  have count : (block.toList ++ rest).length / 64 = rest.length / 64 + 1 := by
    rw [List.length_append, Vector.length_toList, Nat.add_div_left _ (by decide)]
  rw [blocks64, count, List.range_succ_eq_map, List.map_cons, List.map_map, blocks64]
  refine congrArg₂ List.cons (Vector.ext fun p lt => ?_) (List.map_congr_left fun q _ => Vector.ext fun p lt => ?_)
  · rw [Vector.getElem_ofFn, List.getD_append _ _ _ _ (by simp [lt])]
    simp [lt]
  · have skip : 64 * (q + 1) + p - 64 = 64 * q + p := by omega
    rw [Function.comp_apply, Vector.getElem_ofFn, Vector.getElem_ofFn, List.getD_append_right _ _ _ _ (by simp; omega)]
    simp only [Vector.length_toList, Nat.succ_eq_add_one, skip]

/-- Cutting joined blocks gives the blocks again (R95). -/
theorem blocks64_flatMap : blocks64 (blocks.flatMap Vector.toList) = blocks := by
  induction blocks with
  | nil => rfl
  | cons block blocks ih => rw [List.flatMap_cons, blocks64_append, ih]

theorem length_flatMap_toList : (blocks.flatMap Vector.toList).length = 64 * blocks.length := by
  induction blocks with
  | nil => rfl
  | cons block blocks ih => rw [List.flatMap_cons, List.length_append, ih]; simp; omega

end Blocks

end Algorithm

section PaddedBytes
variable (buf : Vector Byte 64) (r : Fin 64) (len : BitLen)

theorem lengthBlock_toList :
    (lengthBlock len).toList = List.replicate 56 0 ++ (List.finRange 8).map (be64 len) := by
  refine List.ext_getElem (by simp) fun p left right => ?_
  simp at left
  by_cases low : p < 56
  · rw [List.getElem_append_left (by simpa using low)]
    rw [List.getElem_replicate, Vector.getElem_toList]
    exact lengthBlock_zero len ⟨p, left⟩ (Nat.le_of_lt_succ low)
  · obtain ⟨j, rfl⟩ := Nat.exists_eq_add_of_le (Nat.not_lt.1 low)
    rw [List.getElem_append_right (by simp), Vector.getElem_toList]
    simpa using lengthBlock_length len ⟨j, by omega⟩

theorem finalBlock_after {p : Nat} (lt : p < 64) (after : r.val < p) :
    (finalBlock buf r len)[p] = if r.val ≤ 55 then (lengthBlock len)[p] else 0 := by
  have notBefore : ¬ (⟨p, lt⟩ : Fin 64) < r := Nat.not_lt_of_gt after
  have notMarker : ¬ (⟨p, lt⟩ : Fin 64) = r := fun eq => by simp [← eq] at after
  by_cases at56 : 56 ≤ p <;> simp [finalBlock, lengthBlock, notBefore, notMarker, at56]

theorem finalBlock_toList :
    (finalBlock buf r len).toList = buf.toList.take r.val ++ [0x80] ++
      (if r.val ≤ 55 then (lengthBlock len).toList else List.replicate 64 0).drop (r.val + 1) := by
  have whole : (finalBlock buf r len).toList = (finalBlock buf r len).toList.take r.val ++
      [(finalBlock buf r len)[r.val]] ++ (finalBlock buf r len).toList.drop (r.val + 1) := by
    rw [List.append_assoc, List.singleton_append, ← Vector.getElem_toList (by simp), List.cons_getElem_drop_succ,
      List.take_append_drop]
  have message : (finalBlock buf r len).toList.take r.val = buf.toList.take r.val :=
    List.ext_getElem (by simp) fun p left _ => by
      have below : p < r.val := by simp at left; omega
      simpa using finalBlock_message buf r len ⟨p, by omega⟩ below
  rw [whole, message, finalBlock_marker]
  refine congrArg _ (List.ext_getElem (by split <;> simp) fun p left _ => ?_)
  have inside : r.val + 1 + p < 64 := by simp at left; omega
  have after := finalBlock_after buf r len inside (by omega)
  split
  · next fits => simpa [fits] using after
  · next full =>
    rw [List.getElem_drop, List.getElem_drop, List.getElem_replicate]
    simpa [full] using after

end PaddedBytes

/-- The blocks FINISH and PAD2 build complete the padded message, after the blocks loaded before them (R69, R70, R72). -/
theorem pad_eq_blocks {m : List Byte} {blocks : List (Vector Byte 64)} {buf : Vector Byte 64} {r : Fin 64}
    {len : BitLen} (message : m = blocks.flatMap Vector.toList ++ buf.toList.take r.val) (length : len.toNat = 8 * m.length) :
    Algorithm.pad m = blocks.flatMap Vector.toList ++ (finalBlock buf r len).toList ++
      if 56 ≤ r.val then (lengthBlock len).toList else [] := by
  have field : BitVec.ofNat 64 (8 * m.length) = len := by rw [← length, BitVec.ofNat_toNat, BitVec.setWidth_eq]
  have count : m.length % 64 = r.val := by
    rw [message, List.length_append, Algorithm.length_flatMap_toList]
    simp
  rw [Algorithm.pad, field, Algorithm.zeroCount, count, finalBlock_toList, lengthBlock_toList, message]
  by_cases full : 56 ≤ r.val
  · have zeros : (119 - r.val) % 64 = 64 - (r.val + 1) + 56 := by omega
    rw [if_pos full, if_neg (by omega), List.drop_replicate, zeros, ← List.replicate_append_replicate]
    simp only [List.append_assoc]
  · have zeros : (119 - r.val) % 64 = 56 - (r.val + 1) := by omega
    rw [if_neg full, if_pos (by omega), List.drop_append_of_le_length (by simp; omega), List.drop_replicate, zeros]
    simp only [List.append_assoc, List.append_nil]

/-- The message bytes in BUF that no block has taken yet (R22). -/
def Regs.pending (r : Regs) : List Byte := r.buf.toList.take r.bufcnt.val

section AbsorbedBytes
variable {r : Regs} {n : Nat} (le : n ≤ 4) (acc : r.accepts n = true)
include le

theorem Regs.completedBlock_toList (fills : 64 ≤ r.bufcnt.val + n) :
    (r.completedBlock n).toList = r.pending ++ (lanes r.dataIn n).take (64 - r.bufcnt.val) := by
  rw [Regs.completedBlock_eq le fills, Regs.pending, ← take_overwrite (by omega), lanes_length r.dataIn le,
    List.take_of_length_le (by simpa using fills)]

include acc

theorem Regs.absorb_pending_of_fits (fits : r.bufcnt.val + n < 64) :
    (r.absorb n).pending = r.pending ++ lanes r.dataIn n := by
  have length := lanes_length r.dataIn le
  have taken := take_overwrite (buf := r.buf) (c := r.bufcnt.val) (bytes := lanes r.dataIn n) (by omega)
  rw [length, List.take_of_length_le (i := 64 - r.bufcnt.val) (by omega)] at taken
  rw [Regs.absorb_eq_of_fits le acc fits]
  exact taken

theorem Regs.absorb_pending_of_fills (fills : 64 ≤ r.bufcnt.val + n) :
    (r.absorb n).pending = (lanes r.dataIn n).drop (64 - r.bufcnt.val) := by
  have length := lanes_length r.dataIn le
  have taken := take_overwrite (buf := r.completedBlock n) (c := 0)
    (bytes := (lanes r.dataIn n).drop (64 - r.bufcnt.val)) (by omega)
  rw [List.length_drop, length, List.take_of_length_le (i := 64 - 0) (by simp; omega)] at taken
  rw [Regs.absorb_eq_of_fills le acc fills, Regs.pending]
  simpa [show r.bufcnt.val + n - 64 = n - (64 - r.bufcnt.val) by omega] using taken

end AbsorbedBytes

/-- The block after a transaction's message `m` so far, `blocks` having been loaded: the invariant behind R72. -/
structure Regs.Consumed (r : Regs) (m : List Byte) (blocks : List (Vector Byte 64)) : Prop where
  inv : r.Inv
  /-- S_PAD2 is entered with PAD2 = 1 only (R89). -/
  pad2Set : r.seq = .pad2 → r.pad2 = true
  /-- BITLEN counts the message exactly (R67, R71). -/
  length : r.bitlen.toNat = 8 * m.length
  /-- The message is in the loaded blocks and then in BUF. -/
  absorbing : r.phase = .absorb → m = blocks.flatMap Vector.toList ++ r.pending
  /-- The padded message is in the loaded blocks, but for the block that PAD2 is still to build. -/
  padded : r.phase = .final ∨ r.phase = .done → Algorithm.pad m =
    blocks.flatMap Vector.toList ++ if r.pad2 then (lengthBlock r.bitlen).toList else []

namespace Regs.Consumed
variable {r : Regs} {m : List Byte} {blocks : List (Vector Byte 64)}

/-- Right after INIT nothing is consumed (R104). -/
theorem init (idle : r.seq = .idle) : r.init.Consumed [] [] where
  inv := Regs.Inv.init idle
  pad2Set := by simp [idle]
  length := rfl
  absorbing _ := rfl
  padded := by simp

theorem setDataIn (before : r.Consumed m blocks) (data : Word) : ({ r with dataIn := data } : Regs).Consumed m blocks :=
  { before with inv := before.inv.setDataIn data }

/-- A rejected command consumes nothing; the block may only enter P_ERROR (R66, R110). -/
theorem reject (before : r.Consumed m blocks) {c : Cause} (isError : c ≠ .none) (notLength : c ≠ .lenOverflow) :
    (r.raiseError c).Consumed m blocks :=
  { before with inv := before.inv.raiseError isError notLength }

theorem overflow (before : r.Consumed m blocks) (idle : r.seq = .idle) (isOpen : r.phase = .absorb) :
    ({ r.raiseError .lenOverflow with phase := .error } : Regs).Consumed m blocks where
  inv := before.inv.raiseOverflow idle isOpen
  pad2Set := before.pad2Set
  length := before.length
  absorbing := nofun
  padded := by simp

/-- Accepted bytes follow the pending ones, and a block they fill moves from BUF to the loaded blocks (R66, R68). -/
theorem accept (before : r.Consumed m blocks) (idle : r.seq = .idle) {n : Nat} (le : n ≤ 4)
    (acc : r.accepts n = true) : (r.absorb n).Consumed (m ++ lanes r.dataIn n)
      (blocks ++ if 64 ≤ r.bufcnt.val + n then [r.completedBlock n] else []) := by
  obtain ⟨isOpen, fits⟩ := (r.accepts_iff n).1 acc
  have inv := before.inv.absorb idle le
  have message : m ++ lanes r.dataIn n =
      (blocks ++ if 64 ≤ r.bufcnt.val + n then [r.completedBlock n] else []).flatMap Vector.toList ++
        (r.absorb n).pending := by
    rw [before.absorbing isOpen]
    by_cases fills : 64 ≤ r.bufcnt.val + n
    · simp [fills, Regs.absorb_pending_of_fills le acc fills, Regs.completedBlock_toList le fills]
    · simp [fills, Regs.absorb_pending_of_fits le acc (Nat.lt_of_not_le fills)]
  obtain ⟨buf, v, w, seq, bufcnt, eq, -, position, -⟩ := Regs.absorb_frame_of_accepts le acc
  rw [eq] at inv message ⊢
  exact {
    inv
    pad2Set := by rcases position with rfl | rfl <;> simp [idle]
    length := by
      rw [BitLen.add_of_fits r.bitlen n fits, before.length, List.length_append, lanes_length r.dataIn le]
      omega
    absorbing := fun _ => message
    padded := by simp [isOpen] }

theorem absorb (before : r.Consumed m blocks) (idle : r.seq = .idle) {n : Nat} (le : n ≤ 4) :
    (r.absorb n).Consumed (m ++ r.absorbed n)
      (blocks ++ if r.accepts n = true ∧ 64 ≤ r.bufcnt.val + n then [r.completedBlock n] else []) := by
  by_cases acc : r.accepts n = true
  · simpa [Regs.absorbed, acc] using before.accept idle le acc
  · have nothing : (r.absorb n).Consumed m blocks := by
      rcases r.absorb_cases n with ⟨-, eq⟩ | ⟨isOpen, -, eq⟩ | ⟨acc', -⟩
      · exact eq ▸ before.reject (c := .absorbNotOpen) nofun nofun
      · exact eq ▸ before.overflow idle isOpen
      · exact absurd acc' acc
    simpa [Regs.absorbed, acc] using nothing

theorem finish (before : r.Consumed m blocks) :
    r.finish.Consumed m
      (blocks ++ if r.phase = .absorb then [finalBlock r.buf r.bufcnt r.bitlen] else []) := by
  have inv := before.inv.finish
  by_cases isOpen : r.phase = .absorb
  · have all := pad_eq_blocks (before.absorbing isOpen) before.length
    rw [r.finish_of_open isOpen] at inv ⊢
    exact {
      inv
      pad2Set := nofun
      length := before.length
      absorbing := nofun
      padded := fun _ => by simpa [isOpen] using all }
  · rw [r.finish_of_closed isOpen, if_neg isOpen, List.append_nil]
    exact before.reject nofun nofun

/-- SCHED, ROUND and FF load nothing, and only FF with PAD2 = 1 leads to S_PAD2 (R79, R88, R89). -/
theorem compute (before : r.Consumed m blocks) {h : Vector Word 8} {v : WorkRegs} {w : Vector Word 64} {q : Seq}
    (inv : ({ r with h := h, v := v, w := w, seq := q } : Regs).Inv) (pad2Set : q = .pad2 → r.pad2 = true) :
    ({ r with h := h, v := v, w := w, seq := q } : Regs).Consumed m blocks :=
  { before with inv, pad2Set }

/-- PAD2 builds the last block of the padded message (R70). -/
theorem padTwo (before : r.Consumed m blocks) (at_ : r.seq = .pad2) (inv : r.padTwo.Inv) :
    r.padTwo.Consumed m (blocks ++ [lengthBlock r.bitlen]) where
  inv
  pad2Set := nofun
  length := before.length
  absorbing isOpen := absurd ((before.inv.tail (.inl at_)).symm.trans isOpen) nofun
  padded _ := by simpa [Regs.padTwo, before.pad2Set at_] using before.padded (.inl (before.inv.tail (.inl at_)))

theorem serialize (before : r.Consumed m blocks) (at_ : r.seq = .ser) (inv : r.serialize.Inv) :
    r.serialize.Consumed m blocks := by
  have padded := before.padded (.inl (before.inv.tail (.inr at_)))
  unfold Regs.serialize at inv ⊢
  exact { before with inv, pad2Set := nofun, absorbing := nofun, padded := fun _ => padded }

theorem microStep (before : r.Consumed m blocks) (busy : r.seq ≠ .idle) :
    r.microStep.Consumed m (blocks ++ if r.seq = .pad2 then [lengthBlock r.bitlen] else []) := by
  have inv := before.inv.microStep busy
  cases at_ : r.seq with
  | idle => exact absurd at_ busy
  | sched k =>
    rw [r.microStep_of_sched at_] at inv ⊢
    rw [if_neg nofun, List.append_nil]
    obtain ⟨later, next⟩ | next := Seq.afterSched_cases k <;> exact before.compute inv (by simp [next])
  | round i =>
    rw [r.microStep_of_round at_] at inv ⊢
    rw [if_neg nofun, List.append_nil]
    obtain ⟨later, next⟩ | next := Seq.afterRound_cases i <;> exact before.compute inv (by simp [next])
  | ff =>
    rw [r.microStep_of_ff at_] at inv ⊢
    rw [if_neg nofun, List.append_nil]
    exact before.compute inv fun at_ => (Seq.afterFF_eq_pad2.1 at_).2
  | pad2 =>
    rw [r.microStep_of_pad2 at_] at inv ⊢
    simpa using before.padTwo at_ inv
  | ser =>
    rw [r.microStep_of_ser at_] at inv ⊢
    rw [if_neg nofun, List.append_nil]
    exact before.serialize at_ inv

end Regs.Consumed

section EventsOfAStep
variable {s t : State}

/-- A command appends to the message and to the loaded blocks what the next step is said to (R71, R72). -/
theorem State.execute_consumes {m : List Byte} {blocks : List (Vector Byte 64)} {i : Instr}
    (command : s.nextCommand = some i) (notInit : i ≠ .init) (idle : s.regs.seq = .idle)
    (before : s.regs.Consumed m blocks) : (s.regs.execute i).Consumed (m ++ s.absorbs) (blocks ++ s.loads) := by
  cases i with
  | init => exact absurd rfl notInit
  | absorb nb =>
    simpa [State.absorbs, State.loads, command, Regs.execute] using before.absorb idle (absorbCount_bounds nb).2
  | finish => simpa [State.absorbs, State.loads, command, Regs.execute] using before.finish
  | nop => simpa [State.absorbs, State.loads, command, Regs.execute] using before
  | reserved4to7 op | reserved8toF op =>
    simpa [State.absorbs, State.loads, command, Regs.execute] using before.reject (c := .reservedOp) nofun nofun

theorem State.absorbs_of_no_command (command : s.nextCommand = none) : s.absorbs = [] := by
  simp [State.absorbs, command]

theorem State.loads_of_no_command (command : s.nextCommand = none) : s.loads =
    if s.nextMove = .sequencer ∧ s.regs.seq = .pad2 then [lengthBlock s.regs.bitlen] else [] := by
  simp [State.loads, command]

/-- Every step of the transaction keeps its message and its blocks in step with the block's state. -/
theorem step_consumes {m : List Byte} {blocks : List (Vector Byte 64)} (stepped : step s = .next t)
    (goesOn : s.restarts = false) (before : s.regs.Consumed m blocks) :
    t.regs.Consumed (m ++ s.absorbs) (blocks ++ s.loads) := by
  rcases step_cases s with ⟨txn, word, move, command, -, idle, next⟩ | ⟨txn, move, command, -, next⟩ |
    ⟨move, busy, next⟩ | ⟨move, -⟩ | ⟨move, -, next⟩
  · cases stepped.symm.trans next
    have command : s.nextCommand = some (decode word) := by simp [State.nextCommand, move, command]
    have notInit : decode word ≠ .init := fun init => by simp [State.restarts, command, init] at goesOn
    exact State.execute_consumes command notInit idle before
  · cases stepped.symm.trans next
    have noCommand : s.nextCommand = none := by simp [State.nextCommand, move, command]
    rw [State.absorbs_of_no_command noCommand, State.loads_of_no_command noCommand, move]
    rcases s.tick.dropTxn.access_regs txn with same | ⟨data, -, written⟩
    · simpa [same] using before
    · simpa [written] using before.setDataIn data
  · cases stepped.symm.trans next
    have noCommand : s.nextCommand = none := by simp [State.nextCommand, move]
    rw [State.absorbs_of_no_command noCommand, State.loads_of_no_command noCommand, move]
    simpa using before.microStep busy
  · simp [State.restarts, move] at goesOn
  · cases stepped.symm.trans next
    have noCommand : s.nextCommand = none := by simp [State.nextCommand, move]
    rw [State.absorbs_of_no_command noCommand, State.loads_of_no_command noCommand, move]
    simpa using before

end EventsOfAStep

section TransactionRun
variable {s t u : State} (k : Nat) (stepped : step s = .next t)
include stepped

theorem messageOf_succ : messageOf (k + 1) s = s.absorbs ++ messageOf k t := by simp [messageOf, stepped]

theorem blocksLoaded_succ : blocksLoaded (k + 1) s = s.loads ++ blocksLoaded k t := by simp [blocksLoaded, stepped]

theorem sameTransaction_succ :
    sameTransaction (k + 1) s = true ↔ s.restarts = false ∧ sameTransaction k t = true := by
  simp [sameTransaction, stepped]

end TransactionRun

/-- What every step of a transaction keeps of its message and its blocks so far holds after a run. -/
theorem run_accumulates {P : Regs → List Byte → List (Vector Byte 64) → Prop}
    (kept : ∀ (s t : State) (m : List Byte) (blocks : List (Vector Byte 64)), step s = .next t → s.restarts = false →
      P s.regs m blocks → P t.regs (m ++ s.absorbs) (blocks ++ s.loads))
    {k : Nat} {s u : State} {m : List Byte} {blocks : List (Vector Byte 64)} (same : sameTransaction k s = true)
    (ran : run k s = .next u) (before : P s.regs m blocks) :
    P u.regs (m ++ messageOf k s) (blocks ++ blocksLoaded k s) := by
  induction k generalizing s m blocks with
  | zero =>
    cases ran
    simpa [messageOf, blocksLoaded] using before
  | succ k ih =>
    obtain ⟨t, stepped⟩ := step_eq_next s
    obtain ⟨goesOn, later⟩ := (sameTransaction_succ k stepped).1 same
    rw [messageOf_succ k stepped, blocksLoaded_succ k stepped, ← List.append_assoc, ← List.append_assoc]
    exact ih later (run_succ k stepped ▸ ran) (kept s t m blocks stepped goesOn before)

/-- A run from INIT keeps the invariant for its whole message. -/
theorem run_consumes {s t u : State} {k : Nat} (idle : s.regs.seq = .idle) (opened : exec .init s = .next t)
    (same : sameTransaction k t = true) (ran : run k t = .next u) :
    u.regs.Consumed (messageOf k t) (blocksLoaded k t) := by
  cases (exec_eq .init s).symm.trans opened
  exact run_accumulates (P := Regs.Consumed) (fun _ _ _ _ => step_consumes) same ran (Regs.Consumed.init idle)

/-- Settles O50: in P_DONE the loaded blocks are the whole padded message, which cuts into them alone. -/
theorem loadedBlocksArePaddedMessage : Obligations.LoadedBlocksArePaddedMessage := by
  intro s t u k idle opened same ran done
  have after := run_consumes idle opened same ran
  have padded : Algorithm.pad (messageOf k t) = (blocksLoaded k t).flatMap Vector.toList := by
    have noPad2 : u.regs.pad2 = false := by
      by_contra set
      have final := after.inv.pad2Final (by simpa using set)
      exact absurd (done.symm.trans final) nofun
    simpa [noPad2] using after.padded (.inr done)
  have length := Algorithm.length_pad_eq_blocks (messageOf k t)
  rw [padded, Algorithm.length_flatMap_toList] at length
  exact ⟨by rw [padded, Algorithm.blocks64_flatMap], Nat.eq_of_mul_eq_mul_left (by decide) length⟩

end Sys2Proof.Machine
end

section
/-! The bit functions (41_scheduler.md R73 to R76, 42_compressor.md R81, R82): which bits of x come to bit b. -/

namespace Sys2Proof.Machine

section Bits
variable (x : Word) {n b : Nat} (inRange : 1 ≤ n ∧ n ≤ 31)

/-- The right shift brings the bits up to 31 down, and the left shift brings those that fell out to the top (R73). -/
theorem getLsbD_rotr (lt : b < 32) : (rotr x n inRange).getLsbD b = x.getLsbD ((b + n) % 32) := by
  rw [rotr, BitVec.getLsbD_or, BitVec.getLsbD_ushiftRight, BitVec.getLsbD_shiftLeft, Nat.add_comm n b]
  by_cases inWord : b + n < 32
  · have notWrapped : b < 32 - n := by omega
    simp [Nat.mod_eq_of_lt inWord, notWrapped]
  · have wrapped : (b + n) % 32 = b - (32 - n) := by omega
    have notWrapped : ¬ b < 32 - n := by omega
    simp [wrapped, notWrapped, lt, BitVec.getLsbD_of_ge x (b + n) (Nat.not_lt.1 inWord)]

theorem getLsbD_shr : (shr x n inRange).getLsbD b = if b + n < 32 then x.getLsbD (b + n) else false := by
  rw [shr, BitVec.getLsbD_ushiftRight, Nat.add_comm n b]
  split
  · rfl
  · next beyond => exact BitVec.getLsbD_of_ge x (b + n) (Nat.not_lt.1 beyond)

end Bits

/-- Settles O6, by whether bit b + n lies in the word or wraps. -/
theorem rotrMovesEachBit : Obligations.RotrMovesEachBit :=
  fun x _ inRange _ lt => getLsbD_rotr x inRange lt

/-- Settles O53: each sigma is the exclusive or of its rotations and its shift, bit by bit. -/
theorem sigmasMixBitsByTheirAmounts : Obligations.SigmasMixBitsByTheirAmounts := by
  intro x b lt
  refine ⟨fun n inRange => getLsbD_shr x inRange, ?_⟩
  simp only [smallSigma0, smallSigma1, bigSigma0, bigSigma1, BitVec.getLsbD_xor, getLsbD_rotr _ _ lt, getLsbD_shr,
    and_self]

end Sys2Proof.Machine
end

section
/-! The message schedule (41_scheduler.md R77 to R80): a schedule filled word by word, by `expand` and by the block. -/

namespace Sys2Proof.Machine

/-- What holds after each element of `List.finRange n` in turn holds after the whole fold. -/
theorem foldl_finRange_induction {α : Type} {n : Nat} {P : Nat → α → Prop} {f : α → Fin n → α} {a : α} (zero : P 0 a)
    (succ : ∀ (k : Fin n) (x : α), P k.val x → P (k.val + 1) (f x k)) : P n ((List.finRange n).foldl f a) := by
  induction n with
  | zero => exact zero
  | succ n ih =>
    rw [List.finRange_succ_last, List.foldl_append, List.foldl_map]
    exact succ (Fin.last n) _ (ih fun k => succ k.castSucc)

/-- The first 16 + m words of `w` are those that R77 gives the block. -/
structure Scheduled (block : Vector Byte 64) (m : Nat) (w : Vector Word 64) : Prop where
  first : ∀ j : Fin 16, w[j.val] = loadWord block j
  derived : ∀ k : Fin 48, k.val < m → w[k.val + 16] = Algorithm.expandWord w k

/-- A word is derived from words below it only (R79). -/
theorem expandWord_congr {w w' : Vector Word 64} {k : Fin 48}
    (below : ∀ (j : Nat) (lt : j < k.val + 16), w[j] = w'[j]) :
    Algorithm.expandWord w k = Algorithm.expandWord w' k := by
  simp only [Algorithm.expandWord, below k.val (by omega), below (k.val + 1) (by omega), below (k.val + 9) (by omega),
    below (k.val + 14) (by omega)]

/-- SCHED adds the four terms in another order than `expand` (R77). -/
theorem schedWord_eq_expandWord (w : Vector Word 64) (k : Fin 48) : schedWord w k = Algorithm.expandWord w k := by
  simp only [schedWord, Algorithm.expandWord]
  ac_rfl

namespace Scheduled
variable {block : Vector Byte 64} {w w' : Vector Word 64}

/-- The next word joins the schedule, and no word it already holds changes. -/
theorem set {k : Fin 48} (before : Scheduled block k.val w) :
    Scheduled block (k.val + 1) (w.set (k.val + 16) (Algorithm.expandWord w k)) where
  first j := by
    rw [Vector.getElem_set_ne _ _ (by omega)]
    exact before.first j
  derived i le := by
    have same : Algorithm.expandWord (w.set (k.val + 16) (Algorithm.expandWord w k)) i = Algorithm.expandWord w i :=
      expandWord_congr fun j lt => Vector.getElem_set_ne _ _ (by omega)
    rw [same]
    by_cases new : i = k
    · rw [new, Vector.getElem_set_self]
    · have old : i.val < k.val := by omega
      rw [Vector.getElem_set_ne _ _ (by omega)]
      exact before.derived i old

/-- R77 fixes the whole schedule. -/
theorem unique (one : Scheduled block 48 w) (other : Scheduled block 48 w') : w = w' := by
  refine Vector.ext fun t lt => ?_
  induction t using Nat.strong_induction_on with
  | h t ih =>
    rcases Nat.lt_or_ge t 16 with low | high
    · exact (one.first ⟨t, low⟩).trans (other.first ⟨t, low⟩).symm
    · obtain ⟨k, rfl⟩ := Nat.exists_eq_add_of_le' high
      have lt48 : k < 48 := by omega
      calc w[k + 16]
        _ = Algorithm.expandWord w ⟨k, lt48⟩ := one.derived ⟨k, lt48⟩ lt48
        _ = Algorithm.expandWord w' ⟨k, lt48⟩ := expandWord_congr fun j below => ih j below _
        _ = w'[k + 16] := (other.derived ⟨k, lt48⟩ lt48).symm

theorem firstWords (block : Vector Byte 64) : Scheduled block 0 (Algorithm.firstWords block) where
  first j := by simp [Algorithm.firstWords]
  derived := nofun

theorem expand (block : Vector Byte 64) : Scheduled block 48 (Algorithm.expand block) :=
  foldl_finRange_induction (firstWords block) fun _ _ => set

theorem loadBlock (r : Regs) : Scheduled r.buf 0 r.loadBlock.w where
  first := r.loadBlock_w_low
  derived := nofun

end Scheduled

/-- Settles O11: `expand` derives each word once, from words that stay. -/
theorem expandMeetsItsRecurrence : Obligations.ExpandMeetsItsRecurrence := fun block =>
  ⟨(Scheduled.expand block).first, fun k => (Scheduled.expand block).derived k k.isLt⟩

/-- Settles O21, by the words of a loaded block. -/
theorem loadBlockCopiesBlockAndHash : Obligations.LoadBlockCopiesBlockAndHash := fun r =>
  ⟨r.loadBlock_w_low, fun k => r.loadBlock_w_high ⟨k.val + 16, by omega⟩ (Nat.le_add_left 16 k.val), rfl⟩

/-- Settles O22: W[t] alone is set, and t = 63 is the last position. -/
theorem schedWritesOneWord : Obligations.SchedWritesOneWord := by
  intro r k at_
  rw [Regs.microStep_of_sched at_]
  refine ⟨Vector.getElem_set_self _, fun j other => ?_, rfl, fun later next => ?_, Seq.afterSched_last k⟩
  · rw [Regs.sched, Vector.getElem_set_ne _ _ other.symm]
  · have lt : k.val + 1 < 48 := next ▸ later.isLt
    obtain rfl : later = ⟨k.val + 1, lt⟩ := Fin.ext next
    exact Seq.afterSched_succ k lt

/-- SEQ `m` micro-steps after a LOADBLK, up to the first ROUND (R79). -/
def Seq.scheduling (m : Nat) : Seq := if lt : m < 48 then .sched ⟨m, lt⟩ else .round 0

theorem Seq.scheduling_of_lt {m : Nat} (lt : m < 48) : Seq.scheduling m = .sched ⟨m, lt⟩ := dif_pos lt

theorem Seq.afterSched_eq_scheduling (k : Fin 48) : Seq.afterSched k = Seq.scheduling (k.val + 1) := rfl

theorem Seq.scheduling_end : Seq.scheduling 48 = .round 0 := rfl

/-- After `m` SCHED micro-steps 16 + m words are the block's, and only W and SEQ have changed since LOADBLK. -/
theorem Regs.loadBlock_microSteps (r : Regs) {m : Nat} (le : m ≤ 48) : ∃ w, Scheduled r.buf m w ∧
    r.loadBlock.microSteps m = { r.loadBlock with w := w, seq := Seq.scheduling m } := by
  induction m with
  | zero => exact ⟨r.loadBlock.w, .loadBlock r, rfl⟩
  | succ m ih =>
    obtain ⟨w, before, eq⟩ := ih (Nat.le_of_lt le)
    refine ⟨_, before.set (k := ⟨m, le⟩), ?_⟩
    rw [Regs.microSteps_succ_last, eq, Regs.microStep_of_sched (Seq.scheduling_of_lt le), Regs.sched,
      schedWord_eq_expandWord, Seq.afterSched_eq_scheduling]

/-- Settles O27: the 48 SCHED micro-steps fill the schedule, and R77 fixes it whole. -/
theorem scheduleIsExpandedBlock : Obligations.ScheduleIsExpandedBlock := by
  intro r
  refine ⟨fun m lt => ?_, ?_⟩
  · obtain ⟨w, -, eq⟩ := r.loadBlock_microSteps (Nat.le_of_lt lt)
    rw [eq, Seq.scheduling_of_lt lt]
    nofun
  · obtain ⟨w, whole, eq⟩ := r.loadBlock_microSteps (Nat.le_refl 48)
    rw [eq]
    exact ⟨Seq.scheduling_end, whole.unique (.expand r.buf)⟩

end Sys2Proof.Machine
end

section
/-! The compressor's functions and tables (42_compressor.md R83 to R86). -/

namespace Sys2Proof.Machine

/-- Below bit 32 a complement flips the bit; beyond, every word reads 0 (R83). -/
theorem getLsbD_ch (e f g : Word) (b : Nat) :
    (ch e f g).getLsbD b = if e.getLsbD b then f.getLsbD b else g.getLsbD b := by
  rw [ch, BitVec.getLsbD_xor, BitVec.getLsbD_and, BitVec.getLsbD_and, BitVec.getLsbD_not]
  rcases Nat.lt_or_ge b 32 with inWord | beyond
  · cases e.getLsbD b <;> simp [inWord]
  · simp [BitVec.getLsbD_of_ge _ b beyond]

theorem getLsbD_maj (x y z : Word) (b : Nat) : (maj x y z).getLsbD b =
    (x.getLsbD b && y.getLsbD b || x.getLsbD b && z.getLsbD b || y.getLsbD b && z.getLsbD b) := by
  simp only [maj, BitVec.getLsbD_xor, BitVec.getLsbD_and]
  cases x.getLsbD b <;> cases y.getLsbD b <;> simp

/-- Settles O7, bit by bit. -/
theorem chChoosesAndMajIsMajority : Obligations.ChChoosesAndMajIsMajority :=
  fun x y z b => ⟨getLsbD_ch x y z b, getLsbD_maj x y z b⟩

/-- The table of R85 is what trial division leaves of the numbers up to 311, in their order. -/
theorem firstPrimes_eq_filter : firstPrimes.toList = (List.range 312).filter fun n => n.Prime := by
  decide +kernel

/-- No whole part exceeds 6, as 7^3 is above 311 (R85). -/
theorem roundK_isCubeRoot : ∀ i : Fin 64, ∃ whole : Fin 7,
    (whole.val * 2 ^ 32 + roundK[i.val].toNat) ^ 3 ≤ firstPrimes[i.val] * 2 ^ 96 ∧
    firstPrimes[i.val] * 2 ^ 96 < (whole.val * 2 ^ 32 + roundK[i.val].toNat + 1) ^ 3 := by
  decide

/-- No whole part exceeds 4, as 5^2 is above 19 (R86). -/
theorem initialHash_isSquareRoot : ∀ k : Fin 8, ∃ whole : Fin 5,
    (whole.val * 2 ^ 32 + initialHash[k.val].toNat) ^ 2 ≤ firstPrimes[k.val] * 2 ^ 64 ∧
    firstPrimes[k.val] * 2 ^ 64 < (whole.val * 2 ^ 32 + initialHash[k.val].toNat + 1) ^ 2 := by
  decide

/-- Settles O8: the table of primes is a filtered range, and each constant is checked with each possible whole part. -/
theorem roundConstantsAreCubeRoots : Obligations.RoundConstantsAreCubeRoots := by
  unfold Obligations.RoundConstantsAreCubeRoots
  rw [firstPrimes_eq_filter]
  refine ⟨fun n => ?_, List.pairwise_lt_range.filter _, fun i => ?_⟩
  · simp [Nat.lt_succ_iff, and_comm]
  · obtain ⟨whole, root⟩ := roundK_isCubeRoot i
    exact ⟨whole, root⟩

/-- Settles O9: the same for the square roots. -/
theorem initialHashIsSquareRoots : Obligations.InitialHashIsSquareRoots := by
  refine ⟨rfl, fun k => ?_⟩
  obtain ⟨whole, root⟩ := initialHash_isSquareRoot k
  exact ⟨whole, root⟩

end Sys2Proof.Machine
end

section
/-! The compression of a block (42_compressor.md R87 to R91): its 64 rounds, by `compress` and by the block. -/

namespace Sys2Proof.Machine

/-- Settles O23: ROUND writes V and SEQ alone, and i = 63 is the last position. -/
theorem roundShiftsWorkingRegisters : Obligations.RoundShiftsWorkingRegisters := by
  rintro r i t1 t2 at_ rfl rfl
  rw [Regs.microStep_of_round at_]
  refine ⟨rfl, fun later next => ?_, Seq.afterRound_last i⟩
  have lt : i.val + 1 < 64 := next ▸ later.isLt
  obtain rfl : later = ⟨i.val + 1, lt⟩ := Fin.ext next
  exact Seq.afterRound_succ i lt

/-- The feed-forward sum, written out (R89). -/
theorem feedForward_eq (h : Vector Word 8) (v : WorkRegs) : feedForward h v =
    #v[h[0] + v.a, h[1] + v.b, h[2] + v.c, h[3] + v.d, h[4] + v.e, h[5] + v.f, h[6] + v.g, h[7] + v.h] := rfl

/-- Settles O24, by the sum and the sequencer's one branch. -/
theorem feedForwardAddsWorkingRegisters : Obligations.FeedForwardAddsWorkingRegisters := by
  intro r at_
  rw [Regs.microStep_of_ff at_]
  refine ⟨?_, fun final set => Seq.afterFF_eq_pad2.2 ⟨final, set⟩, fun final clear => Seq.afterFF_eq_ser.2 ⟨final, clear⟩,
    Seq.afterFF_eq_idle.2⟩
  rw [Regs.feedForward, feedForward_eq]

/-- The working registers after the first `i` rounds over the schedule `w` (R87). -/
def WorkRegs.rounds (v : WorkRegs) (w : Vector Word 64) (i : Nat) : WorkRegs :=
  ((List.finRange 64).take i).foldl (fun v j => v.round roundK[j.val] w[j.val]) v

theorem WorkRegs.rounds_succ (v : WorkRegs) (w : Vector Word 64) (i : Fin 64) :
    v.rounds w (i.val + 1) = (v.rounds w i.val).round roundK[i.val] w[i.val] := by
  have lt : i.val < (List.finRange 64).length := by simp
  rw [WorkRegs.rounds, List.take_succ_eq_append_getElem lt, List.foldl_append]
  simp [WorkRegs.rounds]

/-- `compress` runs all 64 rounds and adds what comes out (R87). -/
theorem compress_eq_feedForward (w : Vector Word 64) (s : Vector Word 8) :
    Algorithm.compress w s = feedForward s ((WorkRegs.ofHash s).rounds w 64) := by
  rw [feedForward_eq, WorkRegs.rounds, List.take_of_length_le (Nat.le_of_eq List.length_finRange)]
  rfl

/-- SEQ `i` micro-steps after S_ROUND(0), up to FF (R88). -/
def Seq.rounding (i : Nat) : Seq := if lt : i < 64 then .round ⟨i, lt⟩ else .ff

theorem Seq.rounding_of_lt {i : Nat} (lt : i < 64) : Seq.rounding i = .round ⟨i, lt⟩ := dif_pos lt

theorem Seq.afterRound_eq_rounding (i : Fin 64) : Seq.afterRound i = Seq.rounding (i.val + 1) := rfl

theorem Seq.rounding_end : Seq.rounding 64 = .ff := rfl

/-- From S_ROUND(0) the ROUND micro-steps run the rounds on V, and only V and SEQ change (R88). -/
theorem Regs.microSteps_of_round {r : Regs} (start : r.seq = .round 0) {i : Nat} (le : i ≤ 64) :
    r.microSteps i = { r with v := r.v.rounds r.w i, seq := Seq.rounding i } := by
  induction i with
  | zero => cases r; cases start; rfl
  | succ i ih =>
    rw [Regs.microSteps_succ_last, ih (Nat.le_of_lt le), Regs.microStep_of_round (Seq.rounding_of_lt le), Regs.round,
      Seq.afterRound_eq_rounding, ← WorkRegs.rounds_succ _ _ ⟨i, le⟩]

/-- After the 48 SCHED and `i` ROUND micro-steps of a loaded block. -/
theorem Regs.loadBlock_microSteps_rounds (r : Regs) {i : Nat} (le : i ≤ 64) :
    r.loadBlock.microSteps (48 + i) = { r.loadBlock with
      w := Algorithm.expand r.buf
      v := (WorkRegs.ofHash r.h).rounds (Algorithm.expand r.buf) i
      seq := Seq.rounding i } := by
  obtain ⟨w, whole, eq⟩ := r.loadBlock_microSteps (Nat.le_refl 48)
  rw [Regs.microSteps_add, eq, Regs.microSteps_of_round Seq.scheduling_end le, whole.unique (.expand r.buf)]
  rfl

/-- After the 48 SCHED, the 64 ROUND and the FF of a loaded block (R90). -/
theorem Regs.loadBlock_microSteps_feedForward (r : Regs) :
    r.loadBlock.microSteps 113 = { r.loadBlock with
      h := Algorithm.compress (Algorithm.expand r.buf) r.h
      w := Algorithm.expand r.buf
      v := (WorkRegs.ofHash r.h).rounds (Algorithm.expand r.buf) 64
      seq := Seq.afterFF r.phase r.pad2 } := by
  rw [Regs.microSteps_succ_last r.loadBlock 112, r.loadBlock_microSteps_rounds (Nat.le_refl 64),
    Regs.microStep_of_ff Seq.rounding_end, Regs.feedForward, compress_eq_feedForward]
  rfl

/-- Until its FF a block in flight leaves H as it was (R90). -/
theorem Regs.loadBlock_microSteps_h (r : Regs) {m : Nat} (lt : m < 113) : (r.loadBlock.microSteps m).h = r.h := by
  rcases Nat.le_total m 48 with scheduling | rounding
  · obtain ⟨w, -, eq⟩ := r.loadBlock_microSteps scheduling
    rw [eq, Regs.loadBlock_h]
  · obtain ⟨i, rfl⟩ := Nat.exists_eq_add_of_le rounding
    rw [r.loadBlock_microSteps_rounds (by omega), Regs.loadBlock_h]

/-- Settles O28: SCHED completes the schedule before ROUND reads it, and FF alone adds the rounds to H. -/
theorem blockIsCompressedIntoHash : Obligations.BlockIsCompressedIntoHash := by
  intro r
  refine ⟨?_, fun m => r.loadBlock_microSteps_h, ?_⟩ <;> rw [r.loadBlock_microSteps_feedForward]
  rfl

end Sys2Proof.Machine
end

section
/-! Blocks are loaded one at a time (41_scheduler.md R78, 42_compressor.md R91). -/

namespace Sys2Proof.Machine

section LoadingStep
variable {s t : State} (stepped : step s = .next t)
include stepped

/-- A command is performed on an idle block only (R99). -/
theorem step_of_nextCommand {i : Instr} (command : s.nextCommand = some i) :
    s.regs.seq = .idle ∧ t.regs = s.regs.execute i := by
  rcases step_cases s with ⟨txn, word, move, isCommand, -, idle, next⟩ | ⟨txn, move, noCommand, -⟩ | ⟨move, -⟩ |
    ⟨move, -⟩ | ⟨move, -⟩
  · cases stepped.symm.trans next
    obtain rfl : decode word = i := by simpa [State.nextCommand, move, isCommand] using command
    exact ⟨idle, rfl⟩
  · simp [State.nextCommand, move, noCommand] at command
  all_goals simp [State.nextCommand, move] at command

theorem step_of_sequencer (move : s.nextMove = .sequencer) : t.regs = s.regs.microStep := by
  rw [step, move] at stepped
  cases stepped
  rfl

end LoadingStep

/-- The command or micro-step that loads a block, and which block that is (R66, R69, R70). -/
theorem State.loads_cases {s : State} (loads : s.loads ≠ []) :
    (∃ nb, s.nextCommand = some (.absorb nb) ∧ s.regs.accepts (absorbCount nb) = true ∧
      64 ≤ s.regs.bufcnt.val + absorbCount nb ∧ s.loads = [s.regs.completedBlock (absorbCount nb)]) ∨
    (s.nextCommand = some .finish ∧ s.regs.phase = .absorb ∧
      s.loads = [finalBlock s.regs.buf s.regs.bufcnt s.regs.bitlen]) ∨
    (s.nextMove = .sequencer ∧ s.regs.seq = .pad2 ∧ s.loads = [lengthBlock s.regs.bitlen]) := by
  cases command : s.nextCommand with
  | none =>
    rw [State.loads_of_no_command command, ite_ne_right_iff] at loads
    obtain ⟨⟨move, at_⟩, -⟩ := loads
    exact .inr (.inr ⟨move, at_, by rw [State.loads_of_no_command command, if_pos ⟨move, at_⟩]⟩)
  | some i =>
    cases i with
    | absorb nb =>
      simp only [State.loads, command, ite_ne_right_iff] at loads
      obtain ⟨⟨acc, fills⟩, -⟩ := loads
      exact .inl ⟨nb, rfl, acc, fills, by simp [State.loads, command, acc, fills]⟩
    | finish =>
      simp only [State.loads, command, ite_ne_right_iff] at loads
      exact .inr (.inl ⟨rfl, loads.1, by simp [State.loads, command, loads.1]⟩)
    | nop | init | reserved4to7 op | reserved8toF op => exact absurd (by simp [State.loads, command]) loads

/-- A loading step leaves the words of its one block in W, and their micro-steps then start (R78). -/
theorem step_loads {s t : State} (stepped : step s = .next t) (loads : s.loads ≠ []) :
    ∃ block, s.loads = [block] ∧ (s.regs.seq = .idle ∨ (s.nextMove = .sequencer ∧ s.regs.seq = .pad2)) ∧
      t.regs.seq = .sched 0 ∧ ∀ j : Fin 16, t.regs.w[j.val] = loadWord block j := by
  rcases State.loads_cases loads with ⟨nb, command, acc, fills, block⟩ | ⟨command, isOpen, block⟩ | ⟨move, at_, block⟩
  · obtain ⟨idle, eq⟩ := step_of_nextCommand stepped command
    rw [eq, Regs.execute, Regs.absorb_eq_of_fills (absorbCount_bounds nb).2 acc fills]
    exact ⟨_, block, .inl idle, rfl, fun j => by simp only [Regs.loadBlock_w_low]⟩
  · obtain ⟨idle, eq⟩ := step_of_nextCommand stepped command
    rw [eq, Regs.execute, Regs.finish_of_open _ isOpen]
    exact ⟨_, block, .inl idle, rfl, fun j => by simp only [Regs.loadBlock_w_low]⟩
  · rw [step_of_sequencer stepped move, Regs.microStep_of_pad2 at_]
    exact ⟨_, block, .inr ⟨move, at_⟩, rfl, Regs.loadBlock_w_low _⟩

/-- Settles O45: ABSORB, FINISH and PAD2 each run one LOADBLK, after which the step leaves W alone. -/
theorem blocksAreLoadedOneAtATime : Obligations.BlocksAreLoadedOneAtATime := by
  intro s t stepped loads
  obtain ⟨block, only, free, seq, words⟩ := step_loads stepped loads
  rw [only]
  refine ⟨rfl, free, seq, fun b mem j => ?_⟩
  rw [List.mem_singleton.1 mem]
  exact words j

end Sys2Proof.Machine
end

section
/-! The serializer (43_serializer.md R92 to R94): the digest written whole, and what the host then reads. -/

namespace Sys2Proof.Machine

section SerializedBlock
variable (r : Regs)

@[simp] theorem Regs.serialize_h : r.serialize.h = r.h := by rw [Regs.serialize]
@[simp] theorem Regs.serialize_seq : r.serialize.seq = .idle := by rw [Regs.serialize]
@[simp] theorem Regs.serialize_cmderr : r.serialize.cmderr = r.cmderr := by rw [Regs.serialize]
@[simp] theorem Regs.serialize_ecause : r.serialize.ecause = r.ecause := by rw [Regs.serialize]

end SerializedBlock

namespace Regs.Inv
variable {r : Regs} (inv : r.Inv)
include inv

/-- No block is in flight in P_DONE (R36 (a)). -/
theorem idle_of_done (done : r.phase = .done) : r.seq = .idle := by
  by_contra busy
  simpa [done] using inv.busyPhase busy

theorem lenerr_of_ne_error (noError : r.phase ≠ .error) : r.lenerr = false :=
  Bool.eq_false_iff.2 (mt inv.lenerrPhase.1 noError)

/-- STATUS in P_DONE: BUSY, LENERR and BUFCNT are 0 (R30, R36, R94). -/
theorem status_of_done (done : r.phase = .done) : r.status =
    (0x32#32 ||| flagBit r.cmderr <<< 3) ||| r.ecause.code.setWidth 32 <<< 16 := by
  have noLenerr := inv.lenerr_of_ne_error (by simp [done])
  rw [Regs.status, Regs.busy, Regs.done, inv.idle_of_done done, done, noLenerr, inv.countZero (.inr done)]
  cases r.cmderr <;> rfl

end Regs.Inv

/-- Settles O26: D is read back as the words of H, and the invariant that SER keeps fixes the fields of STATUS. -/
theorem serializerWritesWholeDigest : Obligations.SerializerWritesWholeDigest := by
  intro r at_
  rw [r.microStep_of_ser at_]
  refine ⟨rfl, digestBytes_getElem r.h, fun k => r.serialize.read_digest k (digestBytes_getElem r.h k), fun inv => ?_⟩
  rw [(inv.serialize at_).status_of_done rfl, r.serialize_cmderr, r.serialize_ecause]
  refine ⟨fun clear => ?_, fun set => ?_⟩
  · have noLenerr := inv.lenerr_of_ne_error (by simp [inv.tail (.inr at_)])
    rw [clear, inv.causeFlags.2 ⟨noLenerr, clear⟩]
    rfl
  · rw [set]
    rfl

/-- Bytes that stand in D as SER writes them are the assembled digest (R92, R93). -/
theorem toList_eq_assemble {d : Vector Byte 32} {h : Vector Word 8}
    (bytes : ∀ (k : Fin 8) (j : Fin 4), d[4 * k.val + j.val] = byteOf h[k.val] j) :
    d.toList = Algorithm.assemble h := by
  have digest : d.toList = List.ofFn fun p : Fin (4 * 8) => d[p.val] :=
    List.ext_getElem (by simp) fun p _ _ => by rw [Vector.getElem_toList, List.getElem_ofFn]
  have words : h.toList = List.ofFn fun k : Fin 8 => h[k.val] :=
    List.ext_getElem (by simp) fun p _ _ => by rw [Vector.getElem_toList, List.getElem_ofFn]
  rw [digest, List.ofFn_mul', Algorithm.assemble, words, List.flatMap_def, List.map_ofFn]
  simp only [bytes, List.ofFn_eq_map, Function.comp_def]

end Sys2Proof.Machine
end

section
/-! The whole-block theorem (43_serializer.md R95): H follows the loaded blocks, an invariant that every step keeps. -/

namespace Sys2Proof.Machine

theorem Seq.afterFF_cases (phase : Phase) (pad2 : Bool) : Seq.afterFF phase pad2 = .idle ∨
    Seq.afterFF phase pad2 = .pad2 ∨ Seq.afterFF phase pad2 = .ser := by
  by_cases final : phase = .final
  · cases pad2
    · exact .inr (.inr (Seq.afterFF_eq_ser.2 ⟨final, rfl⟩))
    · exact .inr (.inl (Seq.afterFF_eq_pad2.2 ⟨final, rfl⟩))
  · exact .inl (Seq.afterFF_eq_idle.2 final)

/-- The hash state is `s` once the block in flight is through: what is left of its schedule and of its rounds leads there
(R78, R87, R90). -/
def Regs.HashesTo (r : Regs) (s : Vector Word 8) : Prop :=
  match r.seq with
  | .idle => r.h = s
  | .sched k => r.v = WorkRegs.ofHash r.h ∧
      ∃ block, Scheduled block k.val r.w ∧ Algorithm.compress (Algorithm.expand block) r.h = s
  | .round i => r.v = (WorkRegs.ofHash r.h).rounds r.w i.val ∧ Algorithm.compress r.w r.h = s
  | .ff => Machine.feedForward r.h r.v = s
  | .pad2 => r.h = s
  | .ser => r.h = s

section HashesToPositions
variable {r : Regs} {s : Vector Word 8}

theorem Regs.hashesTo_of_between (between : r.seq = .idle ∨ r.seq = .pad2 ∨ r.seq = .ser) :
    r.HashesTo s ↔ r.h = s := by
  rcases between with at_ | at_ | at_ <;> rw [Regs.HashesTo, at_]

theorem Regs.hashesTo_of_sched {k : Fin 48} (at_ : r.seq = .sched k) : r.HashesTo s ↔ r.v = WorkRegs.ofHash r.h ∧
    ∃ block, Scheduled block k.val r.w ∧ Algorithm.compress (Algorithm.expand block) r.h = s := by
  rw [Regs.HashesTo, at_]

theorem Regs.hashesTo_of_round {i : Fin 64} (at_ : r.seq = .round i) : r.HashesTo s ↔
    r.v = (WorkRegs.ofHash r.h).rounds r.w i.val ∧ Algorithm.compress r.w r.h = s := by
  rw [Regs.HashesTo, at_]

theorem Regs.hashesTo_of_ff (at_ : r.seq = .ff) : r.HashesTo s ↔ Machine.feedForward r.h r.v = s := by
  rw [Regs.HashesTo, at_]

end HashesToPositions

namespace Regs.HashesTo
variable {r t : Regs} {s : Vector Word 8} (before : r.HashesTo s)
include before

/-- Only H, V, W and SEQ matter to the block in flight (R37). -/
theorem congr (h : t.h = r.h) (v : t.v = r.v) (w : t.w = r.w) (seq : t.seq = r.seq) : t.HashesTo s := by
  rw [Regs.HashesTo, h, v, w, seq]
  exact before

/-- The last SCHED leaves the expanded block in W, of which no round has been run (R80). -/
theorem sched {k : Fin 48} (at_ : r.seq = .sched k) : (r.sched k).HashesTo s := by
  obtain ⟨copy, block, schedule, hash⟩ := (Regs.hashesTo_of_sched at_).1 before
  have next : Scheduled block (k.val + 1) (r.sched k).w := by
    rw [Regs.sched, schedWord_eq_expandWord]
    exact schedule.set
  by_cases more : k.val + 1 < 48
  · exact (Regs.hashesTo_of_sched (k := ⟨k.val + 1, more⟩) (Seq.afterSched_succ k more)).2 ⟨copy, block, next, hash⟩
  · have last : k.val = 47 := by omega
    rw [last] at next
    have whole : (r.sched k).w = Algorithm.expand block := next.unique (.expand block)
    refine (Regs.hashesTo_of_round (i := 0) (Seq.afterSched_last k last)).2 ⟨copy, ?_⟩
    rw [whole]
    exact hash

/-- The last ROUND leaves all 64 rounds in V, for FF to add (R87, R89). -/
theorem round {i : Fin 64} (at_ : r.seq = .round i) : (r.round i).HashesTo s := by
  obtain ⟨rounds, hash⟩ := (Regs.hashesTo_of_round at_).1 before
  have next : (r.round i).v = (WorkRegs.ofHash r.h).rounds r.w (i.val + 1) := by
    rw [WorkRegs.rounds_succ, ← rounds, Regs.round]
  by_cases more : i.val + 1 < 64
  · exact (Regs.hashesTo_of_round (i := ⟨i.val + 1, more⟩) (Seq.afterRound_succ i more)).2 ⟨next, hash⟩
  · have last : i.val = 63 := by omega
    rw [last] at next
    refine (Regs.hashesTo_of_ff (Seq.afterRound_last i last)).2 ?_
    rw [next, ← hash, compress_eq_feedForward, Regs.round]

/-- FF ends the block, whatever comes next (R89). -/
theorem feedForward (at_ : r.seq = .ff) : r.feedForward.HashesTo s := by
  have between : r.feedForward.seq = .idle ∨ r.feedForward.seq = .pad2 ∨ r.feedForward.seq = .ser :=
    Seq.afterFF_cases r.phase r.pad2
  exact (Regs.hashesTo_of_between between).2 ((Regs.hashesTo_of_ff at_).1 before)

/-- A micro-step that loads no block leaves what the block in flight leads to. -/
theorem microStep (noLoad : r.seq ≠ .pad2) : r.microStep.HashesTo s := by
  cases at_ : r.seq with
  | idle => rwa [r.microStep_of_idle at_]
  | sched k => exact r.microStep_of_sched at_ ▸ before.sched at_
  | round i => exact r.microStep_of_round at_ ▸ before.round at_
  | ff => exact r.microStep_of_ff at_ ▸ before.feedForward at_
  | pad2 => exact absurd at_ noLoad
  | ser =>
    rw [r.microStep_of_ser at_]
    have hash : r.h = s := (Regs.hashesTo_of_between (.inr (.inr at_))).1 before
    exact (Regs.hashesTo_of_between (.inl r.serialize_seq)).2 (r.serialize_h.trans hash)

end Regs.HashesTo

section StepHashes
variable {s t : State} (stepped : step s = .next t)
include stepped

/-- LOADBLK copies H to V (R78). -/
theorem step_loads_hash (loads : s.loads ≠ []) :
    t.regs.h = s.regs.h ∧ t.regs.v = WorkRegs.ofHash s.regs.h := by
  rcases State.loads_cases loads with ⟨nb, command, acc, fills, -⟩ | ⟨command, isOpen, -⟩ | ⟨move, at_, -⟩
  · obtain ⟨-, eq⟩ := step_of_nextCommand stepped command
    rw [eq, Regs.execute, Regs.absorb_eq_of_fills (absorbCount_bounds nb).2 acc fills]
    exact ⟨rfl, rfl⟩
  · obtain ⟨-, eq⟩ := step_of_nextCommand stepped command
    rw [eq, Regs.execute, Regs.finish_of_open _ isOpen]
    exact ⟨rfl, rfl⟩
  · rw [step_of_sequencer stepped move, Regs.microStep_of_pad2 at_]
    exact ⟨rfl, rfl⟩

/-- A step of the host that neither restarts nor loads leaves the block in flight alone (R49). -/
theorem step_keeps_block (goesOn : s.restarts = false) (noLoad : s.loads = []) (host : s.nextMove ≠ .sequencer) :
    t.regs.h = s.regs.h ∧ t.regs.v = s.regs.v ∧ t.regs.w = s.regs.w ∧ t.regs.seq = s.regs.seq := by
  simp only [State.restarts, Bool.or_eq_false_iff, beq_eq_false_iff_ne] at goesOn
  obtain ⟨noReset, noInit⟩ := goesOn
  have writes := step_writes stepped noReset
  refine ⟨?_, ?_, ?_, ?_⟩ <;> by_contra changed
  · exact (writes.h changed).elim noInit fun h => host h.1
  · exact (writes.v changed).elim (absurd noLoad) fun h => host h.1
  · exact (writes.w changed).elim (absurd noLoad) fun h => host h.1
  · exact (writes.seq changed).elim (absurd noLoad) fun h => host h.1

/-- Every step of the transaction hashes the blocks it loads, one by one and in order (R91). -/
theorem step_hashes {x : Vector Word 8} (goesOn : s.restarts = false) (before : s.regs.HashesTo x) :
    t.regs.HashesTo (Algorithm.hashBlocks x s.loads) := by
  by_cases loads : s.loads = []
  · rw [loads]
    by_cases move : s.nextMove = .sequencer
    · have notPad2 : s.regs.seq ≠ .pad2 := fun at_ => by
        simp [State.loads, State.nextCommand, move, at_] at loads
      exact step_of_sequencer stepped move ▸ before.microStep notPad2
    · obtain ⟨h, v, w, seq⟩ := step_keeps_block stepped goesOn loads move
      exact before.congr h v w seq
  · obtain ⟨block, only, free, start, words⟩ := step_loads stepped loads
    obtain ⟨h, v⟩ := step_loads_hash stepped loads
    have between : s.regs.seq = .idle ∨ s.regs.seq = .pad2 ∨ s.regs.seq = .ser :=
      free.imp_right fun tail => .inl tail.2
    rw [only, ← (Regs.hashesTo_of_between between).1 before]
    exact (Regs.hashesTo_of_sched start).2 ⟨h ▸ v, block, ⟨words, nofun⟩, h ▸ rfl⟩

end StepHashes

/-- A run from INIT hashes all the blocks it loads. -/
theorem run_hashes {s t u : State} {k : Nat} (idle : s.regs.seq = .idle) (opened : exec .init s = .next t)
    (same : sameTransaction k t = true) (ran : run k t = .next u) :
    u.regs.HashesTo (Algorithm.hashBlocks initialHash (blocksLoaded k t)) := by
  cases (exec_eq .init s).symm.trans opened
  refine run_accumulates (P := fun r _ blocks => r.HashesTo (Algorithm.hashBlocks initialHash blocks))
    (m := []) (blocks := []) (fun s t _ blocks stepped goesOn before => ?_) same ran ?_
  · rw [Algorithm.hashBlocks, List.foldl_append]
    exact step_hashes stepped goesOn before
  · exact (Regs.hashesTo_of_between (r := s.regs.init) (.inl idle)).2 rfl

/-- Settles O51: in P_DONE the loaded blocks are those of the padded message, H is their hash, and D is H in bytes. -/
theorem digestIsSha256OfMessage : Obligations.DigestIsSha256OfMessage := by
  intro s t u k idle opened same ran done
  have consumed := run_consumes idle opened same ran
  have blocks := (loadedBlocksArePaddedMessage s t u k idle opened same ran done).1
  have hash : u.regs.h = Algorithm.hashBlocks initialHash (blocksLoaded k t) :=
    (Regs.hashesTo_of_between (.inl (consumed.inv.idle_of_done done))).1 (run_hashes idle opened same ran)
  refine ⟨?_, ?_⟩
  · rw [toList_eq_assemble (consumed.inv.digestDone done), hash, blocks, Algorithm.sha256]
  · have length := consumed.length
    have lt := u.regs.bitlen.isLt
    omega

end Sys2Proof.Machine
end

section
/-! The event a step takes, among the enabled ones (44_host_interface.md R99, R106, R108), and the steps in which the
sequencer moves or nothing is enabled. -/

namespace Sys2Proof.Machine

/-- When a state may make a move: the event is enabled or, for the step that makes none, no event is (R108). -/
def State.Admits (s : State) : Move → Prop
  | .host t => s.hostEvent = some t
  | .sequencer => s.regs.seq ≠ .idle
  | .reset => s.turns.head? = some .reset
  | .quiet => s.regs.seq = .idle ∧ s.hostEvent = none

theorem State.admits_nextMove (s : State) : s.Admits s.nextMove := by
  rcases s.nextMove_cases with ⟨t, move, event⟩ | ⟨move, busy⟩ | ⟨move, reset⟩ | ⟨move, idle, none⟩ <;> rw [move]
  · exact event
  · exact busy
  · exact reset
  · exact ⟨idle, none⟩

section NextMove
variable {s : State} {t : Txn}

theorem State.admits_of_nextMove {move : Move} (chosen : s.nextMove = move) : s.Admits move := chosen ▸ s.admits_nextMove

/-- With nothing held and no reset due, an idle block makes the host's event, whoever has the turn (R108). -/
theorem State.nextMove_eq_host (event : s.hostEvent = some t) (idle : s.regs.seq = .idle)
    (noReset : s.turns.head? ≠ some .reset) : s.nextMove = .host t :=
  match s.nextMove, s.admits_nextMove with
  | .host _, other => congrArg Move.host (Option.some.inj (other.symm.trans event))
  | .sequencer, busy => absurd idle busy
  | .reset, reset => absurd reset noReset
  | .quiet, ⟨_, noEvent⟩ => nomatch noEvent.symm.trans event

/-- With no event of the host and no reset due, the sequencer moves if it is busy (R108). -/
theorem State.nextMove_eq_sequencer (noEvent : s.hostEvent = none) (busy : s.regs.seq ≠ .idle)
    (noReset : s.turns.head? ≠ some .reset) : s.nextMove = .sequencer :=
  match s.nextMove, s.admits_nextMove with
  | .host _, event => nomatch noEvent.symm.trans event
  | .sequencer, _ => rfl
  | .reset, reset => absurd reset noReset
  | .quiet, ⟨idle, _⟩ => absurd idle busy

/-- With no event of the host, no reset due and the sequencer idle, nothing is enabled (R108). -/
theorem State.nextMove_eq_quiet (noEvent : s.hostEvent = none) (idle : s.regs.seq = .idle)
    (noReset : s.turns.head? ≠ some .reset) : s.nextMove = .quiet :=
  match s.nextMove, s.admits_nextMove with
  | .host _, event => nomatch noEvent.symm.trans event
  | .sequencer, busy => absurd idle busy
  | .reset, reset => absurd reset noReset
  | .quiet, _ => rfl

theorem step_of_nextMove_sequencer (move : s.nextMove = .sequencer) :
    step s = .next { s with regs := s.regs.microStep, turns := s.turns.tail, reply := none } := by
  rw [step, move]
  rfl

theorem step_of_nextMove_quiet (move : s.nextMove = .quiet) :
    step s = .next { s with turns := s.turns.tail, reply := none } := by
  rw [step, move]
  rfl

/-- An idle block holds nothing back, so the host has an event as soon as it has a transaction (R99). -/
theorem State.hostEvent_eq_none_iff_of_idle (idle : s.regs.seq = .idle) : s.hostEvent = none ↔ s.host = [] := by
  cases host : s.host with
  | nil => simp [State.hostEvent, host]
  | cons t rest => simp [State.hostEvent, host, Regs.holds, Regs.busy, idle]

end NextMove

/-- Settles O39: the sequencer moves only when it is busy, and with nothing enabled the step is quiet. -/
theorem sequencerStepIsOneMicroStep : Obligations.SequencerStepIsOneMicroStep := by
  refine ⟨fun s move => ⟨State.admits_of_nextMove move, step_of_nextMove_sequencer move⟩, fun s idle noHost noReset => ?_⟩
  have noEvent := (State.hostEvent_eq_none_iff_of_idle idle).2 noHost
  exact step_of_nextMove_quiet (State.nextMove_eq_quiet noEvent idle noReset)

/-- Settles O40: the move chosen is one the state admits, and each enabled event is chosen on its agent's turn. -/
theorem stepsAreTheEnabledEvents : Obligations.StepsAreTheEnabledEvents := by
  refine ⟨fun s t event => ?_, fun s busy => ?_, fun s => rfl,
    fun s t move => State.hostEvent_eq_some.1 (State.admits_of_nextMove move),
    fun s move => State.admits_of_nextMove move, fun s move => State.admits_of_nextMove move, fun s move => ?_, step_eq_next⟩
  · have event' : ({ s with turns := [.host] } : State).hostEvent = some t := event
    rw [State.nextMove, State.hostFirst, event']
  · exact if_pos (Regs.busy_iff.2 busy)
  · obtain ⟨idle, noEvent⟩ := State.admits_of_nextMove move
    exact ⟨idle, (State.hostEvent_eq_none_iff_of_idle idle).1 noEvent⟩

end Sys2Proof.Machine
end

section
/-! A CTRL write as the host's next transaction (44_host_interface.md R98, R99, R101, R102): performed by an idle block,
held by a busy one. -/

namespace Sys2Proof.Machine

section CommandWrite
variable {s : State} {word : Word} {rest : List Txn} (host : s.host = .write 0x00 .word word :: rest)
include host

/-- A CTRL write is an event of the host exactly on an idle block (R99). -/
theorem State.hostEvent_of_ctrlWrite_idle (idle : s.regs.seq = .idle) : s.hostEvent = some (.write 0x00 .word word) :=
  State.hostEvent_eq_some.2 ⟨by rw [host, List.head?_cons], fun _ => idle⟩

theorem State.hostEvent_of_ctrlWrite_busy (busy : s.regs.seq ≠ .idle) : s.hostEvent = none := by
  have held : s.regs.holds (.write 0x00 .word word) = true := Regs.holds_iff.2 ⟨by simp, busy⟩
  rw [State.hostEvent, host]
  exact if_pos held

/-- A held write stays pending, and the step is the sequencer's (R99). -/
theorem step_of_ctrlWrite_busy (busy : s.regs.seq ≠ .idle) (noReset : s.turns.head? ≠ some .reset) :
    step s = .next { s with regs := s.regs.microStep, turns := s.turns.tail, reply := none } :=
  step_of_nextMove_sequencer (State.nextMove_eq_sequencer (State.hostEvent_of_ctrlWrite_busy host busy) busy noReset)

/-- An idle block performs the command (R101, R102). -/
theorem step_of_ctrlWrite_idle (idle : s.regs.seq = .idle) (noReset : s.turns.head? ≠ some .reset) :
    step s = exec (decode word) { s with host := rest, turns := s.turns.tail, reply := some .okay } := by
  rw [step, State.nextMove_eq_host (State.hostEvent_of_ctrlWrite_idle host idle) idle noReset, State.make, State.perform,
    Txn.command_write_ctrl]
  simp only [State.tick, State.dropTxn, State.answer, host, List.tail_cons]

end CommandWrite

/-- Settles O35: a held write is no event of the host, so the sequencer moves. -/
theorem heldWriteStaysPending : Obligations.HeldWriteStaysPending :=
  fun _ _ _ host busy noReset => step_of_ctrlWrite_busy host busy noReset

/-- Settles O37: on an idle block the write is an event of the host, and the sequencer has none. -/
theorem stepRunsTheDecodedCommand : Obligations.StepRunsTheDecodedCommand :=
  fun _ _ _ host idle noReset => step_of_ctrlWrite_idle host idle noReset

/-- Settles O38: the placed word is a CTRL write on an idle block. -/
theorem placedCommandRunsNext : Obligations.PlacedCommandRunsNext := by
  intro s w lt
  have placed : (s.withFetchWord 32 w).host = .write 0x00 .word (BitVec.ofNat 32 w) :: s.host := by
    rw [State.withFetchWord, Nat.mod_eq_of_lt lt]
  exact step_of_ctrlWrite_idle placed rfl nofun

/-- Settles O12: OP = 0 decodes to NOP, whose write is performed or held as any command's. -/
theorem nopChangesNothing : Obligations.NopChangesNothing := by
  refine ⟨fun s => rfl, fun s word rest ts op host turns => ?_⟩
  have noReset : s.turns.head? ≠ some .reset := by simp [turns]
  refine ⟨fun idle => ?_, fun busy => ?_⟩
  · rw [step_of_ctrlWrite_idle host idle noReset, decode_of_nop op, turns]
    rfl
  · rw [step_of_ctrlWrite_busy host busy noReset, turns]
    rfl

end Sys2Proof.Machine
end

section
/-! How many micro-steps a block has before it (44_host_interface.md R99, R107): a number that each micro-step lowers by one
and that is 0 exactly at S_IDLE. -/

namespace Sys2Proof.Machine

/-- The micro-steps left after an FF (R106): none, SER, or PAD2, one more block of 113 and SER. -/
def stepsAfterFF (phase : Phase) (pad2 : Bool) : Nat := if phase = .final then (if pad2 then 115 else 1) else 0

/-- The micro-steps left until the sequencer is idle (R107). -/
def Regs.stepsLeft (r : Regs) : Nat :=
  match r.seq with
  | .idle => 0
  | .sched k => 48 - k.val + 65 + stepsAfterFF r.phase r.pad2
  | .round i => 64 - i.val + 1 + stepsAfterFF r.phase r.pad2
  | .ff => 1 + stepsAfterFF r.phase r.pad2
  | .pad2 => 114 + stepsAfterFF r.phase false
  | .ser => 1

section Positions
variable {r : Regs}

theorem Regs.stepsLeft_of_idle (at_ : r.seq = .idle) : r.stepsLeft = 0 := by simp [Regs.stepsLeft, at_]
theorem Regs.stepsLeft_of_sched {k : Fin 48} (at_ : r.seq = .sched k) :
    r.stepsLeft = 48 - k.val + 65 + stepsAfterFF r.phase r.pad2 := by simp [Regs.stepsLeft, at_]
theorem Regs.stepsLeft_of_round {i : Fin 64} (at_ : r.seq = .round i) :
    r.stepsLeft = 64 - i.val + 1 + stepsAfterFF r.phase r.pad2 := by simp [Regs.stepsLeft, at_]
theorem Regs.stepsLeft_of_ff (at_ : r.seq = .ff) : r.stepsLeft = 1 + stepsAfterFF r.phase r.pad2 := by
  simp [Regs.stepsLeft, at_]
theorem Regs.stepsLeft_of_pad2 (at_ : r.seq = .pad2) : r.stepsLeft = 114 + stepsAfterFF r.phase false := by
  simp [Regs.stepsLeft, at_]
theorem Regs.stepsLeft_of_ser (at_ : r.seq = .ser) : r.stepsLeft = 1 := by simp [Regs.stepsLeft, at_]

theorem Regs.stepsLeft_eq_zero : r.stepsLeft = 0 ↔ r.seq = .idle := by
  cases at_ : r.seq <;> simp [Regs.stepsLeft, at_]

end Positions

theorem stepsAfterFF_le (phase : Phase) (pad2 : Bool) : stepsAfterFF phase pad2 ≤ 115 := by
  cases phase <;> cases pad2 <;> decide

theorem stepsAfterFF_of_no_pad2_le (phase : Phase) : stepsAfterFF phase false ≤ 1 := by cases phase <;> decide

/-- No position is more than 228 micro-steps from S_IDLE (R107). -/
theorem Regs.stepsLeft_le (r : Regs) : r.stepsLeft ≤ 228 := by
  have afterFF := stepsAfterFF_le r.phase r.pad2
  have noPad2 := stepsAfterFF_of_no_pad2_le r.phase
  unfold Regs.stepsLeft
  split <;> omega

theorem Regs.stepsLeft_loadBlock (r : Regs) : r.loadBlock.stepsLeft = 113 + stepsAfterFF r.phase r.pad2 := by
  rw [Regs.stepsLeft_of_sched r.loadBlock_seq]
  rfl

/-- FF leads to the position its branch says (R89, R106). -/
theorem Regs.stepsLeft_feedForward (r : Regs) : r.feedForward.stepsLeft = stepsAfterFF r.phase r.pad2 := by
  by_cases final : r.phase = .final
  · cases pad2 : r.pad2
    · rw [Regs.stepsLeft_of_ser (Seq.afterFF_eq_ser.2 ⟨final, pad2⟩), stepsAfterFF, if_pos final, if_neg nofun]
    · rw [Regs.stepsLeft_of_pad2 (Seq.afterFF_eq_pad2.2 ⟨final, pad2⟩), Regs.feedForward, final]
      rfl
  · rw [Regs.stepsLeft_of_idle (Seq.afterFF_eq_idle.2 final), stepsAfterFF, if_neg final]

/-- Each micro-step is one of those left, and at S_IDLE there is none (R106). -/
theorem Regs.stepsLeft_microStep (r : Regs) : r.microStep.stepsLeft = r.stepsLeft - 1 := by
  cases at_ : r.seq with
  | idle => rw [Regs.microStep_of_idle at_, Regs.stepsLeft_of_idle at_]
  | sched k =>
    rw [Regs.microStep_of_sched at_, Regs.stepsLeft_of_sched at_]
    by_cases lt : k.val + 1 < 48
    · rw [Regs.stepsLeft_of_sched (Seq.afterSched_succ k lt), Regs.sched]
      simp only
      omega
    · rw [Regs.stepsLeft_of_round (Seq.afterSched_last k (by omega)), Regs.sched]
      simp only [Fin.val_zero]
      omega
  | round i =>
    rw [Regs.microStep_of_round at_, Regs.stepsLeft_of_round at_]
    by_cases lt : i.val + 1 < 64
    · rw [Regs.stepsLeft_of_round (Seq.afterRound_succ i lt), Regs.round]
      simp only
      omega
    · rw [Regs.stepsLeft_of_ff (Seq.afterRound_last i (by omega)), Regs.round]
      simp only
      omega
  | ff => rw [Regs.microStep_of_ff at_, Regs.stepsLeft_of_ff at_, Regs.stepsLeft_feedForward, Nat.add_sub_cancel_left]
  | pad2 =>
    rw [Regs.microStep_of_pad2 at_, Regs.stepsLeft_of_pad2 at_, Regs.padTwo, Regs.stepsLeft_loadBlock,
      Nat.sub_add_comm (by decide)]
  | ser => rw [Regs.microStep_of_ser at_, Regs.stepsLeft_of_ser at_, Regs.stepsLeft_of_idle r.serialize_seq]

theorem Regs.stepsLeft_microSteps (r : Regs) (n : Nat) : (r.microSteps n).stepsLeft = r.stepsLeft - n := by
  induction n with
  | zero => rfl
  | succ n ih => rw [Regs.microSteps_succ_last, Regs.stepsLeft_microStep, ih, Nat.sub_sub]

/-- The sequencer is idle exactly from the number of micro-steps left on. -/
theorem Regs.microSteps_idle_iff (r : Regs) (n : Nat) : (r.microSteps n).seq = .idle ↔ r.stepsLeft ≤ n := by
  rw [← Regs.stepsLeft_eq_zero, Regs.stepsLeft_microSteps, Nat.sub_eq_zero_iff_le]

theorem Regs.idleFirstAfter_stepsLeft (r : Regs) : r.IdleFirstAfter r.stepsLeft :=
  ⟨(r.microSteps_idle_iff _).2 (Nat.le_refl _), fun m lt idle => absurd ((r.microSteps_idle_iff m).1 idle) (by omega)⟩

/-- A hold step by step: as long as micro-steps are left, each step is one of them, and the write stays pending (R99). -/
theorem run_of_hold {word : Word} {rest : List Txn} {m : Nat} : ∀ {s : State}, s.host = .write 0x00 .word word :: rest →
    (∀ turn ∈ s.turns, turn ≠ .reset) → m ≤ s.regs.stepsLeft →
    ∃ u, run m s = .next u ∧ u.regs = s.regs.microSteps m ∧ u.host = s.host ∧ u.turns = s.turns.drop m := by
  induction m with
  | zero => exact fun _ _ _ => ⟨_, rfl, rfl, rfl, rfl⟩
  | succ m ih =>
    intro s host noReset le
    have busy : s.regs.seq ≠ .idle := fun idle => by rw [Regs.stepsLeft_of_idle idle] at le; omega
    have stepped := step_of_ctrlWrite_busy host busy fun reset => noReset _ (List.mem_of_mem_head? reset) rfl
    have left : m ≤ s.regs.microStep.stepsLeft := by rw [Regs.stepsLeft_microStep]; omega
    obtain ⟨u, ran, regs, pending, turns⟩ := ih
      (s := { s with regs := s.regs.microStep, turns := s.turns.tail, reply := none }) host
      (fun turn mem => noReset turn (List.mem_of_mem_tail mem)) left
    exact ⟨u, (run_succ m stepped).trans ran, regs, pending, by rw [turns, List.drop_tail]⟩

/-- Settles O36: the hold lasts as many steps as micro-steps are left, and then the write is the next event. -/
theorem holdEndsWithin228MicroSteps : Obligations.HoldEndsWithin228MicroSteps := by
  intro s word rest host noReset
  refine ⟨s.regs.stepsLeft, s.regs.stepsLeft_le, fun m le => ?_, ?_⟩
  · obtain ⟨u, ran, regs, pending, -⟩ := run_of_hold host noReset le
    exact ⟨u, ran, regs, pending⟩
  · obtain ⟨u, ran, regs, pending, turns⟩ := run_of_hold host noReset (Nat.le_refl _)
    have idle : u.regs.seq = .idle := by rw [regs]; exact s.regs.idleFirstAfter_stepsLeft.1
    have event := State.hostEvent_of_ctrlWrite_idle (pending.trans host) idle
    refine ⟨u, ran, idle, State.nextMove_eq_host event idle fun reset => ?_⟩
    exact noReset .reset (List.mem_of_mem_drop (turns ▸ List.mem_of_mem_head? reset)) rfl

section LoadedBlockPositions
variable (r : Regs)

theorem Regs.loadBlock_microSteps_seq_sched (k : Fin 48) : (r.loadBlock.microSteps k.val).seq = .sched k := by
  obtain ⟨w, -, eq⟩ := r.loadBlock_microSteps (Nat.le_of_lt k.isLt)
  rw [eq, Seq.scheduling_of_lt k.isLt]

theorem Regs.loadBlock_microSteps_seq_round (i : Fin 64) : (r.loadBlock.microSteps (48 + i.val)).seq = .round i := by
  rw [r.loadBlock_microSteps_rounds (Nat.le_of_lt i.isLt), Seq.rounding_of_lt i.isLt]

theorem Regs.loadBlock_microSteps_seq_ff : (r.loadBlock.microSteps 112).seq = .ff := by
  rw [r.loadBlock_microSteps_rounds (Nat.le_refl 64), Seq.rounding_end]

theorem Regs.loadBlock_microSteps_seq_afterFF : (r.loadBlock.microSteps 113).seq = Seq.afterFF r.phase r.pad2 := by
  rw [r.loadBlock_microSteps_feedForward]

/-- In P_FINAL with PAD2 set the micro-step after FF loads the second padding block, with PAD2 clear (R70, R106). -/
theorem Regs.loadBlock_microSteps_second (final : r.phase = .final) (pad2 : r.pad2 = true) :
    ∃ second : Regs, (∀ n, r.loadBlock.microSteps (114 + n) = second.loadBlock.microSteps n) ∧
      second.phase = .final ∧ second.pad2 = false := by
  have at_ : (r.loadBlock.microSteps 113).seq = .pad2 :=
    r.loadBlock_microSteps_seq_afterFF.trans (Seq.afterFF_eq_pad2.2 ⟨final, pad2⟩)
  refine ⟨{ r.loadBlock.microSteps 113 with buf := lengthBlock (r.loadBlock.microSteps 113).bitlen, pad2 := false },
    fun n => ?_, ?_, rfl⟩
  · rw [Regs.microSteps_add, Regs.microSteps_succ_last r.loadBlock 113, Regs.microStep_of_pad2 at_]
    rfl
  · simp only [r.loadBlock_microSteps_feedForward, Regs.loadBlock_phase, final]

end LoadedBlockPositions

/-- Settles O29: the positions of one block, those of the second padding block, and the steps a LOADBLK has before it. -/
theorem microStepCountsOfEachPath : Obligations.MicroStepCountsOfEachPath := by
  intro r
  have count : ∀ n, 113 + stepsAfterFF r.phase r.pad2 = n → r.loadBlock.IdleFirstAfter n := fun n eq =>
    (r.stepsLeft_loadBlock.trans eq) ▸ r.loadBlock.idleFirstAfter_stepsLeft
  refine ⟨r.loadBlock_microSteps_seq_sched, r.loadBlock_microSteps_seq_round, r.loadBlock_microSteps_seq_ff,
    fun absorb => ?_, fun final clear => ⟨?_, ?_⟩, fun final set => ?_⟩
  · exact count 113 (by rw [absorb]; rfl)
  · exact r.loadBlock_microSteps_seq_afterFF.trans (Seq.afterFF_eq_ser.2 ⟨final, clear⟩)
  · exact count 114 (by rw [final, clear]; rfl)
  · obtain ⟨second, later, final', clear⟩ := r.loadBlock_microSteps_second final set
    refine ⟨r.loadBlock_microSteps_seq_afterFF.trans (Seq.afterFF_eq_pad2.2 ⟨final, set⟩), fun k => ?_, fun i => ?_, ?_, ?_,
      count 228 (by rw [final, set]; rfl)⟩
    · rw [later]
      exact second.loadBlock_microSteps_seq_sched k
    · rw [Nat.add_assoc 114 48 i.val, later]
      exact second.loadBlock_microSteps_seq_round i
    · exact (congrArg Regs.seq (later 112)).trans second.loadBlock_microSteps_seq_ff
    · exact (congrArg Regs.seq (later 113)).trans
        (second.loadBlock_microSteps_seq_afterFF.trans (Seq.afterFF_eq_ser.2 ⟨final', clear⟩))

end Sys2Proof.Machine
end

section
/-! Reads and writes of the register window (44_host_interface.md R100, R101). -/

namespace Sys2Proof.Machine

section Map
variable {off : Nat}

theorem regAt_eq_dataIn : regAt off = .dataIn ↔ off = 0x08 := by
  unfold regAt
  repeat' split
  all_goals simp_all

/-- The offsets of the window that name no register (R29). -/
theorem regAt_eq_reserved (hole : off = 0x0C ∨ off = 0x18 ∨ off = 0x1C ∨ 0x60 ≤ off) : regAt off = .reserved := by
  rw [regAt, if_neg (by omega), if_neg (by omega), if_neg (by omega), if_neg (by omega), if_neg (by omega),
    dif_neg (by omega), dif_neg (by omega)]

end Map

section AlignedAccess
variable {s : State} {off : Nat} {rest : List Txn} {ts : List Turn} (turns : s.turns = .host :: ts) (aligned : off % 4 = 0)
  (inside : off < 0x80)
include turns aligned inside

/-- On the host's turn an aligned 32-bit read in the window gives the register and changes nothing, BUSY or not (R100). -/
theorem step_of_read (host : s.host = .read off .word :: rest) :
    step s = .next { s with host := rest, turns := ts, reply := some (.okayData (s.regs.read off)) } := by
  have here : (Txn.read off .word).forThisBlock = true := decide_eq_true inside
  have good : (Txn.read off .word).accessOK = true := decide_eq_true ⟨rfl, aligned, inside⟩
  rw [step_of_hostTurn host turns rfl, State.access, here, good]
  simp [State.answer, State.dropTxn, State.tick, host, turns]

/-- On the host's turn such a write to any register but CTRL reaches that register alone, BUSY or not (R101). -/
theorem step_of_write {data : Word} (notCtrl : off ≠ 0x00) (host : s.host = .write off .word data :: rest) :
    step s = .next { s with
      regs := s.regs.writeReg data (regAt off), host := rest, turns := ts, reply := some .okay } := by
  have here : (Txn.write off .word data).forThisBlock = true := decide_eq_true inside
  have good : (Txn.write off .word data).accessOK = true := decide_eq_true ⟨rfl, aligned, inside⟩
  have noCommand : (Txn.write off .word data).command = none := Option.eq_none_iff_forall_ne_some.2 fun word command => by
    cases Txn.command_eq_some.1 command
    exact notCtrl rfl
  rw [step_of_hostTurn host turns noCommand, State.access, here, good]
  simp [State.answer, State.onRegs, State.dropTxn, State.tick, host, turns]

end AlignedAccess

/-- Settles O31: the read gives the register at its offset, and the map says which that is. -/
theorem readReturnsRegisterAndChangesNothing : Obligations.ReadReturnsRegisterAndChangesNothing := by
  intro s off rest ts host turns aligned inside
  refine ⟨s.regs.read off, step_of_read turns aligned inside host, ?_, ?_, ?_, ?_, ?_, ?_, ?_, fun hole => ?_⟩
  · rintro rfl; rfl
  · rintro rfl; rfl
  · rintro rfl; rfl
  · rintro rfl
    exact BitVec.extractLsb'_toNat ..
  · rintro rfl
    have lt := s.regs.bitlen.isLt
    refine (BitVec.extractLsb'_toNat ..).trans ?_
    rw [Nat.shiftRight_eq_div_pow]
    omega
  · rintro k rfl
    rw [Regs.read, regAt_digest, Regs.readReg]
  · rintro k rfl
    exact s.regs.read_hstate k
  · rw [Regs.read, regAt_eq_reserved hole, Regs.readReg]

/-- Settles O32: CTRL takes a command, and of the other registers only DATA_IN takes the data. -/
theorem writeRunsCommandOrSetsDataIn : Obligations.WriteRunsCommandOrSetsDataIn := by
  intro s off data rest ts host turns aligned inside
  refine ⟨?_, ?_, fun notCtrl notDataIn => ?_⟩
  · rintro rfl idle
    rw [step_of_ctrlWrite_idle host idle (by simp [turns]), turns, List.tail_cons]
  · rintro rfl
    exact step_of_write turns aligned inside nofun host
  · have ignored : s.regs.writeReg data (regAt off) = s.regs :=
      (s.regs.writeReg_frame data _).resolve_right fun written => notDataIn (regAt_eq_dataIn.1 written.1)
    rw [step_of_write turns aligned inside notCtrl host, ignored]

end Sys2Proof.Machine
end

section
/-! The commands INIT and the reserved opcodes (44_host_interface.md R104, R105). -/

namespace Sys2Proof.Machine

/-- STATUS of an idle block right after INIT: PHASE is P_ABSORB, everything else 0 (R104). -/
theorem Regs.status_init {r : Regs} (idle : r.seq = .idle) : r.init.status = 0x00000010#32 := by
  simp only [Regs.status, Regs.busy, Regs.done, Regs.init_seq, idle, Regs.init_phase, Regs.init_lenerr, Regs.init_cmderr,
    Regs.init_bufcnt, Regs.init_ecause]
  decide

/-- Settles O13: INIT writes its registers whatever they held, so a second one changes nothing. -/
theorem initOpensTransaction : Obligations.InitOpensTransaction := by
  intro s
  refine ⟨s.onRegs Regs.init, rfl, rfl, rfl, Regs.status_init, fun k => ⟨s.regs.init.read_hstate k, ?_⟩⟩
  have zeroByte : ∀ j : Fin 4, byteOf 0 j = 0 := by decide
  exact s.regs.init.read_digest k fun j => by rw [zeroByte, Regs.init_d, Vector.getElem_replicate]

/-- Settles O14: a reserved opcode is a rejected command with cause 1. -/
theorem reservedOpcodeOnlyRecords : Obligations.ReservedOpcodeOnlyRecords := by
  rintro s op i (rfl | rfl)
  · exact exec_of_rejected rfl nofun
  · exact exec_of_rejected rfl nofun

end Sys2Proof.Machine
end

section
/-! The record of errors: a step keeps it, or empties it (60_exceptions.md R110, R115). -/

namespace Sys2Proof.Machine

/-- `t` still has every error flag and the cause recorded in `r` (R110). -/
structure Regs.KeepsErrors (r t : Regs) : Prop where
  lenerr : r.lenerr = true → t.lenerr = true
  cmderr : r.cmderr = true → t.cmderr = true
  ecause : r.ecause ≠ .none → t.ecause = r.ecause

/-- The record of errors is empty, as after reset (R115, R125). -/
structure Regs.NoErrors (r : Regs) : Prop where
  lenerr : r.lenerr = false
  cmderr : r.cmderr = false
  ecause : r.ecause = .none

theorem Regs.noErrors_reset : Regs.reset.NoErrors := ⟨rfl, rfl, rfl⟩

theorem Regs.noErrors_init (r : Regs) : r.init.NoErrors := ⟨r.init_lenerr, r.init_cmderr, r.init_ecause⟩

namespace Regs.KeepsErrors

variable {r t : Regs}

theorem of_same_record (lenerr : t.lenerr = r.lenerr) (cmderr : t.cmderr = r.cmderr) (ecause : t.ecause = r.ecause) :
    r.KeepsErrors t :=
  ⟨lenerr.trans, cmderr.trans, fun _ => ecause⟩

theorem refl (r : Regs) : r.KeepsErrors r := of_same_record rfl rfl rfl

/-- A later error adds a flag and leaves a recorded cause (R110). -/
theorem raiseError (r : Regs) (c : Cause) : r.KeepsErrors (r.raiseError c) where
  lenerr set := by rw [Regs.raiseError_lenerr, set, Bool.true_or]
  cmderr set := by rw [Regs.raiseError_cmderr, set, Bool.true_or]
  ecause recorded := by rw [Regs.raiseError_ecause, if_neg recorded]

theorem absorb (r : Regs) {n : Nat} (le : n ≤ 4) : r.KeepsErrors (r.absorb n) := by
  rcases r.absorb_cases n with ⟨-, eq⟩ | ⟨-, -, eq⟩ | ⟨acc, -⟩
  · exact eq ▸ raiseError r _
  · exact eq ▸ { raiseError r .lenOverflow with }
  · obtain ⟨buf, v, w, seq, bufcnt, eq, -⟩ := Regs.absorb_frame_of_accepts le acc
    exact eq ▸ of_same_record rfl rfl rfl

theorem finish (r : Regs) : r.KeepsErrors r.finish := by
  by_cases isOpen : r.phase = .absorb
  · exact r.finish_of_open isOpen ▸ of_same_record rfl rfl rfl
  · exact r.finish_of_closed isOpen ▸ raiseError r _

/-- INIT is the only command that clears an error (R110, R115). -/
theorem execute (r : Regs) {i : Instr} (notInit : i ≠ .init) : r.KeepsErrors (r.execute i) := by
  cases i with
  | nop => exact refl r
  | init => exact absurd rfl notInit
  | absorb nb => exact absorb r (absorbCount_bounds nb).2
  | finish => exact finish r
  | reserved4to7 op | reserved8toF op => exact raiseError r .reservedOp

theorem microStep (r : Regs) : r.KeepsErrors r.microStep := by
  obtain ⟨-, -, lenerr, cmderr, ecause, -⟩ := r.microStep_frame
  exact of_same_record lenerr cmderr ecause

end Regs.KeepsErrors

section StepErrors
variable {s t : State}

theorem State.restarts_eq_true : s.restarts = true ↔ s.nextMove = .reset ∨ s.nextCommand = some .init := by
  rw [State.restarts, Bool.or_eq_true, beq_iff_eq, beq_iff_eq]

/-- The step's event keeps the record, whichever it is but INIT and reset (R110). -/
theorem step_keepsErrors (stepped : step s = .next t) (goesOn : s.restarts = false) : s.regs.KeepsErrors t.regs := by
  have noRestart := mt State.restarts_eq_true.2 (Bool.eq_false_iff.1 goesOn)
  rcases step_regs stepped with ⟨i, command, -, eq⟩ | eq | ⟨data, -, eq⟩ | ⟨-, -, eq⟩ | ⟨reset, -⟩
  · exact eq ▸ .execute s.regs fun init => noRestart (.inr (init ▸ command))
  · exact eq ▸ .refl s.regs
  · exact eq ▸ .of_same_record rfl rfl rfl
  · exact eq ▸ .microStep s.regs
  · exact absurd (.inl reset) noRestart

theorem step_noErrors_of_restarts (stepped : step s = .next t) (restarts : s.restarts = true) : t.regs.NoErrors := by
  rcases State.restarts_eq_true.1 restarts with reset | command
  · rw [step, reset] at stepped
    cases stepped
    exact Regs.noErrors_reset
  · exact (step_of_nextCommand stepped command).2 ▸ s.regs.noErrors_init

end StepErrors

/-- Settles O20, by the record after each command and each other event. -/
theorem errorsKeepTheFirstCause : Obligations.ErrorsKeepTheFirstCause := by
  refine ⟨fun r c _ => ?_, fun s t stepped goesOn => ?_, fun s t stepped restarts => ?_⟩
  · by_cases length : c = .lenOverflow <;> simp [Regs.raiseError, length]
  · obtain ⟨lenerr, cmderr, ecause⟩ := step_keepsErrors stepped goesOn
    exact ⟨lenerr, cmderr, ecause⟩
  · obtain ⟨lenerr, cmderr, ecause⟩ := step_noErrors_of_restarts stepped restarts
    exact ⟨lenerr, cmderr, ecause⟩

end Sys2Proof.Machine
end

section
/-! Accesses of the window that are not aligned 32-bit ones (20_memory.md R44, 60_exceptions.md R112). -/

namespace Sys2Proof.Machine

section BadAccess
variable {t : Txn}

theorem Txn.accessOK_eq_false_of_bad (bad : t.size.bytes ≠ 4 ∨ t.off % 4 ≠ 0) : t.accessOK = false :=
  decide_eq_false fun ⟨size, aligned, _⟩ => bad.elim (absurd size) (absurd aligned)

/-- A bad access of the window only gets its response (R44, R112). -/
theorem State.access_of_bad (s : State) (inside : t.off < 0x80) (bad : t.accessOK = false) :
    s.access t = s.answer .busErr := by
  have here : t.forThisBlock = true := decide_eq_true inside
  simp [State.access, here, bad]

end BadAccess

/-- Settles O33: a bad access is no command, so it is never held, and its response is all it leaves. -/
theorem badAccessGetsBusErrorOnly : Obligations.BadAccessGetsBusErrorOnly := by
  intro s t rest ts host turns inside badForm
  have bad := Txn.accessOK_eq_false_of_bad badForm
  rw [step_of_hostTurn host turns (Txn.command_of_not_accessOK bad), State.access_of_bad _ inside bad]
  simp [State.answer, State.dropTxn, State.tick, host, turns]

end Sys2Proof.Machine
end

section
/-! Reset in any state, and the first command after it (70_reset_and_hazards.md R125, R126). -/

namespace Sys2Proof.Machine

section Reset
variable {s t : State} {ts : List Turn}

/-- On its turn the Reset event happens whatever the state is; the host's transactions stay pending (R125, R126). -/
theorem step_of_resetTurn (turns : s.turns = .reset :: ts) :
    step s = .next { s with regs := Regs.reset, turns := ts, reply := none } := by
  have move : s.nextMove = .reset := by rw [State.nextMove, turns]
  rw [step, move, State.make, State.resetEvent, State.onRegs, State.tick, turns, List.tail_cons]

/-- Reset is the only way to reach P_IDLE (R125). -/
theorem phase_idle_or_reset_of_step (stepped : step s = .next t) (atIdle : t.regs.phase = .idle) :
    s.regs.phase = .idle ∨ s.nextMove = .reset := by
  by_cases same : t.regs.phase = s.regs.phase
  · exact .inl (same ▸ atIdle)
  · rcases phaseChangesOnlyByItsEvents s t stepped same with ⟨-, reset⟩ | ⟨other, -⟩ | ⟨other, -⟩ | ⟨other, -⟩ | ⟨other, -⟩
    · exact .inr reset
    all_goals exact nomatch atIdle.symm.trans other

end Reset

theorem Regs.status_reset : Regs.reset.status = 0 := by decide

/-- The block after reset meets the invariant, so it shows a digest of 0 (R126, R131). -/
theorem Regs.read_digest_reset (k : Fin 8) : Regs.reset.read (0x20 + 4 * k.val) = 0 := by
  obtain ⟨digest, -⟩ := invariantAsTheHostReadsIt Regs.reset invariantHoldsAtReset
  exact (digest k).trans (if_neg nofun)

/-- An ABSORB as the first command after reset is rejected with Error(2), and nothing else shows in STATUS (R66, R126). -/
theorem Regs.status_absorb_reset (n : Nat) : (Regs.reset.absorb n).status = 0x00020008#32 := by
  rw [Regs.reset.absorb_of_closed n nofun]
  decide

/-- Settles O41: the Reset event replaces the whole block, and no other event's target phase is P_IDLE. -/
theorem resetSetsEveryRegister : Obligations.ResetSetsEveryRegister := by
  refine ⟨fun s ts turns => ⟨_, step_of_resetTurn turns, rfl, rfl, rfl, ?_⟩, fun s t => phase_idle_or_reset_of_step⟩
  exact ⟨rfl, rfl, rfl, rfl, rfl, rfl, rfl, rfl, rfl, fun k => Vector.getElem_replicate _,
    fun p => Vector.getElem_replicate _, Regs.status_reset⟩

/-- Settles O42: after the reset the block is idle with the write still pending, so the next step performs it. -/
theorem heldWriteIsFirstCommandAfterReset : Obligations.HeldWriteIsFirstCommandAfterReset := by
  intro s word rest ts _ host turns noReset
  have performed := step_of_ctrlWrite_idle (s := { s with regs := Regs.reset, turns := ts, reply := none }) host rfl noReset
  refine ⟨_, step_of_resetTurn turns, rfl, rfl, rfl, Regs.read_digest_reset, performed, fun nb isAbsorb => ?_⟩
  rw [performed, isAbsorb]
  exact ⟨_, exec_eq _ _, Regs.status_absorb_reset (absorbCount nb)⟩

end Sys2Proof.Machine
end
